-- ==== Sys2Proof/Word.lean ====
section
/-! DEFINITION. The word types of the block (spec/00_scope.md R5, R8): bits are numbered with 0 the least
significant, and every width is the one the parameter table of R5 gives. -/

namespace Sys2Proof

/-- One byte of buffer memory (R30, R50). -/
abbrev Byte := BitVec 8

/-- An IEEE 754 binary64 value, held as its 64-bit interchange pattern (R8: bit 63 sign, bits 62 to 52
biased exponent, bits 51 to 0 fraction).  `bits64` and `f64of` are the identity on this type. -/
abbrev F64 := BitVec 64

/-- A sample of the fixed path, 16 bits, read as two's complement (R5, R23). -/
abbrev Sample16 := BitVec 16

/-- A buffer address or a byte count, `AW` = 32 bits (R5, R50). -/
abbrev Addr := BitVec 32

/-- A command packet or a response packet, 96 bits (R70). -/
abbrev Packet := BitVec 96

end Sys2Proof
end

