-- ==== Sys2Proof/Syntax.lean ====
section
/-! DEFINITION. The seven commands of the block (spec/30_encoding.md R73) with their operands in the types R74
gives them. -/

namespace Sys2Proof

/-- One command of the host, one constructor per row of spec/opcode_table.json (R73). -/
inductive Instr where
  /-- NEWENG.F: construct the Float engine (R120). -/
  | newengF
  /-- NEWENG.X: construct the Fixed engine (R140). -/
  | newengX
  /-- PROC.F: filter one binary64 sample (R121); every 64-bit pattern is a sample (R74). -/
  | procF (sample : F64)
  /-- PROC.X: filter one signed 16-bit sample (R141). -/
  | procX (sample : Sample16)
  /-- FBUF.F: filter a buffer of binary64 samples in place (R170). -/
  | fbufF (base len : Addr)
  /-- FBUF.X: filter a buffer of signed 16-bit samples in place (R173). -/
  | fbufX (base len : Addr)
  /-- RDSAT: read the saturation counter (R156). -/
  | rdsat
  deriving DecidableEq, Repr

end Sys2Proof
end

