-- ==== Sys2Proof/WellFormed.lean ====
section
/-! DEFINITION. Which packets are legal commands and which commands are well formed (spec/30_encoding.md R71,
R74, R77).  The operand types of `Instr` are exactly the ranges R74 allows, so every command is well formed; what
can be ill formed is a packet, and there is one check here per way R77 names. -/

namespace Sys2Proof

/-- `CW = CP[95:64]`, the command word (R71). -/
def Packet.cw (cp : Packet) : BitVec 32 := cp.extractLsb' 64 32

/-- `OPD = CP[63:0]`, the operand (R71). -/
def Packet.opd (cp : Packet) : BitVec 64 := cp.extractLsb' 0 64

/-- `OPC`, bits 31 to 28 of the command word (R71). -/
def Packet.opc (cp : Packet) : BitVec 4 := cp.extractLsb' 92 4

/-- `P`, bit 27 of the command word: 0 Float, 1 Fixed (R71). -/
def Packet.path (cp : Packet) : BitVec 1 := cp.extractLsb' 91 1

/-- `Z`, bits 26 to 0 of the command word, which must be zero (R71). -/
def Packet.z (cp : Packet) : BitVec 27 := cp.extractLsb' 64 27

/-- R77, first and second clause: `OPC` is 1 to 4, and 4 only on the fixed path. -/
def Packet.opcodeOk (cp : Packet) : Bool :=
  cp.opc == 1 || cp.opc == 2 || cp.opc == 3 || (cp.opc == 4 && cp.path == 1)

/-- R77, third clause: the `Z` field is zero. -/
def Packet.zOk (cp : Packet) : Bool := cp.z == 0

/-- R77, fourth clause, with the conditions of R74: no operand for `OPC` 1 and 4, at most 16 bits for PROC.X. -/
def Packet.operandOk (cp : Packet) : Bool :=
  if cp.opc == 1 || cp.opc == 4 then cp.opd == 0
  else if cp.opc == 2 && cp.path == 1 then cp.opd.extractLsb' 16 48 == 0
  else true

/-- A packet that is one of the seven commands with a legal operand (R76, R77). -/
def Packet.legal (cp : Packet) : Bool := cp.opcodeOk && cp.zOk && cp.operandOk

/-- Every term of `Instr` is a command with a legal operand: the operand types hold exactly R74's ranges. -/
def Instr.wellFormed : Instr → Bool
  | .newengF => true
  | .newengX => true
  | .procF _ => true
  | .procX _ => true
  | .fbufF _ _ => true
  | .fbufX _ _ => true
  | .rdsat => true

end Sys2Proof
end

