-- ==== Sys2Proof/Decode.lean ====
section
/-! DEFINITION. The decoder of spec/30_encoding.md R76, total on every 96-bit packet (an illegal packet decodes to
nothing and raises IllegalCommand, R77), and after it the encoder, from the same tables (R73, R74). -/

namespace Sys2Proof

/-- `decode(CP)` (R76).  `none` is R76's `illegal`. -/
def decode (cp : Packet) : Option Instr :=
  if cp.cw = 0x10000000 then
    if cp.opd = 0 then some .newengF else none
  else if cp.cw = 0x18000000 then
    if cp.opd = 0 then some .newengX else none
  else if cp.cw = 0x20000000 then some (.procF cp.opd)
  else if cp.cw = 0x28000000 then
    if cp.opd.extractLsb' 16 48 = 0 then some (.procX (cp.opd.extractLsb' 0 16)) else none
  else if cp.cw = 0x30000000 then some (.fbufF (cp.opd.extractLsb' 0 32) (cp.opd.extractLsb' 32 32))
  else if cp.cw = 0x38000000 then some (.fbufX (cp.opd.extractLsb' 0 32) (cp.opd.extractLsb' 32 32))
  else if cp.cw = 0x48000000 then
    if cp.opd = 0 then some .rdsat else none
  else none

/-- The command word of each command (R73). -/
def Instr.commandWord : Instr → BitVec 32
  | .newengF => 0x10000000
  | .newengX => 0x18000000
  | .procF _ => 0x20000000
  | .procX _ => 0x28000000
  | .fbufF _ _ => 0x30000000
  | .fbufX _ _ => 0x38000000
  | .rdsat => 0x48000000

/-- The operand field of each command (R74): a 16-bit sample is not extended, `LEN` stands above `BASE`. -/
def Instr.operand : Instr → BitVec 64
  | .newengF => 0
  | .newengX => 0
  | .procF sample => sample
  | .procX sample => (0 : BitVec 48) ++ sample
  | .fbufF base len => len ++ base
  | .fbufX base len => len ++ base
  | .rdsat => 0

/-- The packet of a command: `CW` then `OPD` (R71). -/
def encode (i : Instr) : Packet := i.commandWord ++ i.operand

/-- The packet whose first word (`CW`) is bits 31 to 0 of `w` and whose operand counts on from bit 32, as
spec/opcode_table.json numbers the bits (its `match` and `mask` are over the 32-bit `CW`, R71); every bit of the
packet above `nbits` is zero. -/
def tableWordPacket (nbits w : Nat) : Packet :=
  BitVec.ofNat 32 (w % 2 ^ nbits) ++ BitVec.ofNat 64 (w % 2 ^ nbits / 2 ^ 32)

/-- What the decoder reads from an opcode-table word. -/
def decodeTableWord (nbits w : Nat) : Option Instr := decode (tableWordPacket nbits w)

end Sys2Proof
end

