-- ==== Sys2Proof/Config.lean ====
section
/-! DEFINITION. What is fixed for the machine and is not state (spec/00_scope.md R5, spec/10_state.md R27): the
number of taps, the shift, the shape of the Coefficient Table, of the rounding scheme and of the numerics record;
and the two values the spec leaves open, as constants with no body (the table's contents, the pattern of a NaN
result). -/

namespace Sys2Proof

/-- `N`, the index of the newest delay-line entry: 80, so the filter has 81 taps (R5, R101). -/
abbrev Config.N : Nat := 80

/-- `SHIFT`, the right shift of the fixed path (R5). -/
abbrev Config.SHIFT : Nat := 15

/-- The Coefficient Table for `n + 1` taps (R100): real taps, integer taps (each a signed word of `FPCW` = 32
bits, R5) and the gain divisor of the float path.  The engine rules have a meaning for any such table (R6, R109);
the constraints of R106 are `CoeffTable.Admissible`. -/
structure CoeffTable (n : Nat) where
  coeff   : Vector F64 (n + 1)
  fpcoeff : Vector (BitVec 32) (n + 1)
  gain    : F64
  deriving DecidableEq, Repr, Inhabited

/-- The rounding scheme `RND` (R148): the bias added before the shift and the update of the offset, both
functions of the 15-bit offset `OFFS`. -/
structure Rnd where
  bias : BitVec 15 → Int
  next : BitVec 15 → BitVec 15

/-- The numerics record `NUM` (R124): three total functions of their two operands. -/
structure Numerics where
  fadd : F64 → F64 → F64
  fmul : F64 → F64 → F64
  fdiv : F64 → F64 → F64

/-- The configuration record of an engine pair with `n + 1` taps (R5, R6). -/
structure Params (n : Nat) where
  table : CoeffTable n
  rnd   : Rnd
  num   : Numerics

/-- OPEN (R105, U1): the contents of the Coefficient Table, which the source does not print.  No body: nothing
can be proved of it.  The machine uses it through `Machine.hwTable`, which every admissible table and only an
admissible table is a possible value of.  Assumption log 1. -/
opaque Config.rawTable : CoeffTable Config.N

/-- FREE VALUE (R128, U3): the sign and the payload (less one) of the NaN pattern that the `k`-th NaN output of
the float path carries.  No body: nothing can be proved of it.  Assumption log 2. -/
opaque Config.nanDraw : Nat → Bool × Fin 4503599627370495

end Sys2Proof
end

