-- ==== Sys2Proof/Machine/State.lean ====
section
/-! DEFINITION. The state of one block instance with its ports and its buffer memory (spec/10_state.md R20 to R37,
spec/70_reset_and_hazards.md R237), the reasons a step can stop, and the state after hardware reset (R33, R220).
The accumulators `ACC` and `FACC` are not here: R26 and U6 say they are not part of a model's state. -/

namespace Sys2Proof.Machine

/-- Buffer memory (R30, R50): the allocated byte addresses with their bytes, addresses strictly rising.  An
address that is not listed is not allocated (R54, R56: the set of allocated addresses is part of the launch
memory). -/
abbrev Memory := List Host.Cell

/-- The Float slot (R22, R31): the delay line `HF[0..n]`, index 0 the oldest sample, index `n` the newest. -/
structure FloatSlot (n : Nat) where
  hf : Vector F64 (n + 1)
  deriving DecidableEq, Repr

/-- The Fixed slot (R23, R24, R25, R31): the delay line `HX[0..n]`, the rounding offset `OFFS` and the
saturation counter `SATCNT`. -/
structure FixedSlot (n : Nat) where
  hx     : Vector Sample16 (n + 1)
  offs   : BitVec 15
  satcnt : BitVec 32
  deriving DecidableEq, Repr

/-- `STAT`, the three statuses a response can carry (R72, U15). -/
inductive Status where
  | ok
  | invalidBufferLayout
  | illegalCommand
  deriving DecidableEq, Repr

/-- One response (R72): status, saturation flag, result. -/
structure Response where
  stat : Status
  satf : Bool
  res  : BitVec 64
  deriving DecidableEq, Repr

/-- The block between two commands (R37: nothing is in flight), with what the host has given and received.

* `float`, `fixed`: the two engine slots (R31);
* `mem`: buffer memory (R30);
* `commands`: the packets the host will present at the command port, in order (R70, R237);
* `responses`: the response packets produced so far, oldest first (R70, R237);
* `nanDraws`: THE MODEL'S OWN, how many NaN outputs have been produced; it selects the next free value of
  `Config.nanDraw` (R128, assumption log 2). -/
structure State where
  float     : FloatSlot Config.N
  fixed     : FixedSlot Config.N
  mem       : Memory
  commands  : List Packet
  responses : List Response
  nanDraws  : Nat
  deriving DecidableEq, Repr

/-- Why the machine would stop with a fault.  The block has none: its two errors are responses, after which it
goes on (R190, R191, R197), and R193 says that no other error condition exists.  So this type has no
constructor (assumption log 7). -/
inductive Fault where
  deriving DecidableEq, Repr

/-- Why a command has no step. -/
inductive Refusal where
  /-- Raised by `exec` for an instruction with no meaning yet (none is left).  Safe. -/
  | notModelled (mnemonic : String)
  /-- Raised by FBUF.F and FBUF.X when `BASE` is not a multiple of the sample width (R54, condition 1).  Safe:
  the spec gives the command no meaning. -/
  | misalignedBuffer
  /-- Raised by FBUF.F and FBUF.X when the range wraps past 2^32 (R54, condition 2).  Safe, for the same
  reason. -/
  | wrappingBuffer
  /-- Raised by FBUF.F and FBUF.X when an address of the range is not allocated (R54, condition 3).  Safe, for
  the same reason. -/
  | unallocatedBuffer
  deriving DecidableEq, Repr

/-- The block right after hardware reset, idle, with no command presented and no memory allocated (R33, R34,
R220).  Buffer memory is not touched by reset and its contents are the platform's (R56), so nothing is listed. -/
def State.reset : State where
  float     := { hf := Vector.replicate (Config.N + 1) 0 }
  fixed     := { hx := Vector.replicate (Config.N + 1) 0, offs := 0, satcnt := 0 }
  mem       := []
  commands  := []
  responses := []
  nanDraws  := 0

end Sys2Proof.Machine
end

