-- ==== Sys2Proof/Machine/Operands.lean ====
section
/-! DEFINITION. The operand and result forms (spec/30_encoding.md R74, R75) and the images of samples in buffer
memory (spec/20_memory.md R53).  A binary64 value and its pattern are the same 64 bits (R8). -/

namespace Sys2Proof.Machine

/-- `w(F) = 8`, the width of a float sample in bytes (R8, R55). -/
abbrev widthF : Nat := 8

/-- `w(X) = 2`, the width of a fixed sample in bytes (R8, R55). -/
abbrev widthX : Nat := 2

/-- `f64of` of a number read from memory (R53). -/
def f64of (v : Nat) : F64 := BitVec.ofNat 64 v

/-- `bits64` as a number to be written to memory (R53). -/
def bits64 (y : F64) : Nat := y.toNat

/-- A fixed sample read from memory (R53): its 16 bits; `s16` is its reading as two's complement. -/
def sample16Of (v : Nat) : Sample16 := BitVec.ofNat 16 v

/-- `s16` (R8): the signed integer of a 16-bit pattern. -/
def s16 (b : Sample16) : Int := b.toInt

/-- `u16` (R8): the 16-bit pattern of a signed integer. -/
def u16 (v : Int) : Sample16 := BitVec.ofInt 16 v

/-- `RES` of PROC.F (R75). -/
def resFloat (y : F64) : BitVec 64 := y

/-- `RES` of PROC.X (R75): zero-extended, not sign-extended. -/
def resFixed (y : Sample16) : BitVec 64 := y.zeroExtend 64

/-- `RES` of RDSAT (R75): `SATCNT` zero-extended. -/
def resCount (c : BitVec 32) : BitVec 64 := c.zeroExtend 64

/-- The code of a status in `STAT` (R72). -/
def Status.code : Status → BitVec 4
  | .ok => 0
  | .invalidBufferLayout => 1
  | .illegalCommand => 2

/-- The 96-bit response packet of a response (R72): `STAT`, `SATF`, 27 zero bits, `RES`. -/
def Response.packet (r : Response) : Packet :=
  r.stat.code ++ BitVec.ofBool r.satf ++ (0 : BitVec 27) ++ r.res

end Sys2Proof.Machine
end

