-- ==== Sys2Proof/Machine/Flags.lean ====
section
/-! DEFINITION. Saturation, its flag and its counter (spec/42_fixed_engine.md R149, R150, spec/10_state.md R25,
R28).  The block has no other flag. -/

namespace Sys2Proof.Machine

/-- `asr(v, 15)` (R8, R149): the floor of `v / 2^15`. -/
def asr15 (v : Int) : Int := v / 2 ^ Config.SHIFT

/-- `sat16` (R8, R150): clamp to the signed 16-bit range. -/
def sat16 (q : Int) : Int := max (-32768) (min 32767 q)

/-- A saturation event (R150): the shifted result was clamped. -/
def satEvent (q : Int) : Bool := q != sat16 q

/-- The largest value of `SATCNT`, where it stops (R25). -/
def satMax : Nat := 4294967295

/-- `SATCNT` after a step (R141, R158): one more on an event, up to `satMax`, where it stays. -/
def countEvent (event : Bool) (c : BitVec 32) : BitVec 32 :=
  if event then BitVec.ofNat 32 (min (c.toNat + 1) satMax) else c

end Sys2Proof.Machine
end

