-- ==== Sys2Proof/Machine/Ops.lean ====
section
/-! DEFINITION. The named operations over memory, delay lines and the two ports: reading and writing buffer memory
(spec/20_memory.md R50 to R54), the shift of a delay line (spec/41_float_engine.md R122, spec/42_fixed_engine.md
R142), responding, and raising an error (spec/60_exceptions.md R190, R191, R196, R197). -/

namespace Sys2Proof.Machine

/-- What an address that is not listed holds: nothing, it is not allocated (R54, R56; assumption log 3). -/
def Memory.unlisted : Option Byte := none

/-- The byte at an address; `none` when the address is not allocated. -/
def Memory.byte : Memory → Nat → Option Byte
  | [], _ => Memory.unlisted
  | c :: m, a => if a = c.1 then some c.2 else Memory.byte m a

/-- Store a byte, keeping the addresses in rising order. -/
def Memory.set : Memory → Nat → Byte → Memory
  | [], a, b => [(a, b)]
  | c :: m, a, b =>
    if a < c.1 then (a, b) :: c :: m
    else if a = c.1 then (a, b) :: m
    else c :: Memory.set m a b

/-- `MemRead(a, n)` (R52): the `n` bytes from `a` as one unsigned number, the lowest address least significant;
`none` when a byte is not allocated. -/
def Memory.read (m : Memory) : Nat → Nat → Option Nat
  | _, 0 => some 0
  | a, n + 1 =>
    match m.byte a, Memory.read m (a + 1) n with
    | some b, some v => some (b.toNat + 256 * v)
    | _, _ => none

/-- `MemWrite(a, n, v)` (R52): the `n` low bytes of `v` from `a` upward, the least significant at `a`. -/
def Memory.write : Memory → Nat → Nat → Nat → Memory
  | m, _, 0, _ => m
  | m, a, n + 1, v => Memory.write (m.set a (BitVec.ofNat 8 v)) (a + 1) n (v / 256)

/-- Every address of `a .. a+n-1` is allocated (R54, condition 3). -/
def Memory.allocated (m : Memory) : Nat → Nat → Bool
  | _, 0 => true
  | a, n + 1 => (m.byte a).isSome && Memory.allocated m (a + 1) n

/-- The canonical form: addresses strictly rising, and all of `AW` = 32 bits (R30, R50). -/
abbrev Memory.wf (m : Memory) : Prop :=
  m.Pairwise (fun c d => c.1 < d.1) ∧ ∀ c ∈ m, c.1 < 2 ^ 32

/-- Why an FBUF with a good length is refused (R54); `none` when it is admitted. -/
def admission (w base len : Nat) (m : Memory) : Option Refusal :=
  if base % w ≠ 0 then some .misalignedBuffer
  else if 2 ^ 32 < base + len then some .wrappingBuffer
  else if m.allocated base len then none
  else some .unallocatedBuffer

/-- The shift-and-insert step of a delay line (R122, R142, R158): the old line without its first entry, followed
by the new sample. -/
def shiftIn {α : Type} {n : Nat} (hist : Vector α (n + 1)) (s : α) : Vector α (n + 1) :=
  ⟨(hist.toList.tail ++ [s]).toArray, by simp⟩

/-- Produce a response at the response port (R70). -/
def respond (r : Response) (s : State) : State := { s with responses := s.responses ++ [r] }

/-- End a command with `STAT` = 0 (R8, R72). -/
def respondOk (satf : Bool) (res : BitVec 64) (s : State) : State := respond ⟨.ok, satf, res⟩ s

/-- Raise an error (R196): no state element and no memory changes, the response carries the error's status, and
the block goes on (R197). -/
def raiseError (e : Status) (s : State) : Host.Outcome State Fault Refusal := .next (respond ⟨e, false, 0⟩ s)

/-- Take the next packet from the command port; `none` when the host presents none (R70, R237). -/
def acceptCommand (s : State) : Option (Packet × State) :=
  match s.commands with
  | [] => none
  | cp :: rest => some (cp, { s with commands := rest })

/-- Present a packet as the next one at the command port. -/
def presentNext (cp : Packet) (s : State) : State := { s with commands := cp :: s.commands }

end Sys2Proof.Machine
end

