-- ==== Sys2Proof/Machine/Binary64.lean ====
section
/-! DEFINITION. IEEE 754 binary64 arithmetic, the value this hardware takes for the numerics record `NUM`
(spec/41_float_engine.md R124, R128, R129): addition, multiplication and division, each computed exactly and
rounded once, to nearest with ties to even, with gradual underflow and default results.  Every finite value is an
integer multiple of 2^-1074, so the exact operands are integers in that unit. -/

namespace Sys2Proof

/-- Bit 63, the sign (R8). -/
def F64.sign (x : F64) : Bool := x.msb

/-- Bits 62 to 0: exponent and fraction read as one number.  It orders the magnitudes. -/
def F64.magBits (x : F64) : Nat := x.toNat % 2 ^ 63

/-- Bits 62 to 52, the biased exponent (R8). -/
def F64.expField (x : F64) : Nat := x.magBits / 2 ^ 52

/-- Bits 51 to 0, the fraction (R8). -/
def F64.fraction (x : F64) : Nat := x.magBits % 2 ^ 52

/-- `magBits` of an infinity: biased exponent 2047, fraction zero. -/
def F64.infMag : Nat := 2047 * 2 ^ 52

/-- A NaN pattern: biased exponent 2047, fraction not zero. -/
def F64.isNaN (x : F64) : Bool := F64.infMag < x.magBits

/-- One of the two infinities. -/
def F64.isInf (x : F64) : Bool := x.magBits == F64.infMag

/-- A finite number, the zeros included. -/
def F64.isFinite (x : F64) : Bool := x.magBits < F64.infMag

/-- One of the two zeros. -/
def F64.isZero (x : F64) : Bool := x.magBits == 0

/-- How many units of 2^-1074 make the number one.  (Irreducible, so that no tactic evaluates it; the kernel does.) -/
@[irreducible] def F64.unitsPerOne : Nat := 2 ^ 1074

/-- The magnitude of the finite number whose exponent and fraction are `m`, in units of 2^-1074. -/
def F64.magOf (m : Nat) : Nat :=
  if m / 2 ^ 52 = 0 then m else (2 ^ 52 + m % 2 ^ 52) * 2 ^ (m / 2 ^ 52 - 1)

/-- The magnitude of a finite number in units of 2^-1074. -/
def F64.mag (x : F64) : Nat := F64.magOf x.magBits

/-- The exact value of a finite number in units of 2^-1074. -/
def F64.val (x : F64) : Int := if x.sign then -(x.mag : Int) else x.mag

/-- The pattern with a given sign and a given exponent and fraction. -/
def F64.pack (sign : Bool) (m : Nat) : F64 := BitVec.ofNat 64 ((if sign then 2 ^ 63 else 0) + m)

/-- The NaN the operations below answer with.  Which NaN it is cannot be observed: inside a step only whether a
value is a NaN matters, and a NaN output is replaced by a free value (`Machine.settleNaN`; R128, U3). -/
def F64.someNaN : F64 := F64.pack false (F64.infMag + 2 ^ 51)

/-- `num / den` rounded to the nearest integer, ties to even. -/
def F64.nearestEven (num den : Nat) : Nat :=
  if 2 * (num % den) < den then num / den
  else if 2 * (num % den) = den then num / den + num / den % 2
  else num / den + 1

/-- The exponent and fraction of the magnitude `num / den` (in units of 2^-1074) rounded to nearest, ties to
even.  The significand is cut to 53 bits by dropping `e` binary places (none for a subnormal result); a carry out
of it raises the exponent field by one, as it must; a magnitude that rounds past the largest finite number is an
infinity. -/
def F64.roundMag (num den : Nat) : Nat :=
  let e := (num / den).log2 - 52
  min (e * 2 ^ 52 + F64.nearestEven num (den * 2 ^ e)) F64.infMag

/-- Binary64 addition (R124).  An exact zero sum is +0.0 unless both operands are negative zeros. -/
def F64.add (x y : F64) : F64 :=
  if x.isNaN || y.isNaN then F64.someNaN
  else if x.isInf then (if y.isInf && x.sign != y.sign then F64.someNaN else x)
  else if y.isInf then y
  else if x.val + y.val = 0 then F64.pack (x.sign && y.sign) 0
  else F64.pack (decide (x.val + y.val < 0)) (F64.roundMag (x.val + y.val).natAbs 1)

/-- Binary64 multiplication (R124).  Infinity times zero is a NaN. -/
def F64.mul (x y : F64) : F64 :=
  if x.isNaN || y.isNaN then F64.someNaN
  else if x.isInf || y.isInf then
    (if x.isZero || y.isZero then F64.someNaN else F64.pack (x.sign != y.sign) F64.infMag)
  else F64.pack (x.sign != y.sign) (F64.roundMag (x.mag * y.mag) F64.unitsPerOne)

/-- Binary64 division (R124).  Zero by zero and infinity by infinity are NaNs, anything else by zero is an
infinity. -/
def F64.div (x y : F64) : F64 :=
  if x.isNaN || y.isNaN then F64.someNaN
  else if x.isInf then (if y.isInf then F64.someNaN else F64.pack (x.sign != y.sign) F64.infMag)
  else if y.isInf then F64.pack (x.sign != y.sign) 0
  else if y.isZero then (if x.isZero then F64.someNaN else F64.pack (x.sign != y.sign) F64.infMag)
  else F64.pack (x.sign != y.sign) (F64.roundMag (x.mag * F64.unitsPerOne) y.mag)

/-- The value this hardware takes for `NUM` (R124): IEEE 754 binary64, not fused. -/
def Numerics.ieee : Numerics where
  fadd := F64.add
  fmul := F64.mul
  fdiv := F64.div

/-- The NaN pattern with a given sign and a given payload less one; every NaN pattern is one of these. -/
def F64.nanOf (d : Bool × Fin 4503599627370495) : F64 := F64.pack d.1 (F64.infMag + d.2.val + 1)

end Sys2Proof
end

