-- ==== Sys2Proof/Machine/Table.lean ====
section
/-! DEFINITION. The Coefficient Table (spec/40_coefficient_table.md R100 to R106), the rounding scheme `ALT`
(spec/42_fixed_engine.md R147, R148) and the configuration record of this hardware. -/

namespace Sys2Proof

/-- `rne_int(c * 32768)` for a finite `c` (R103): the exact product, rounded to the nearest integer, halfway cases
away from zero. -/
def F64.scaledTap (c : F64) : Int :=
  let m : Nat := (2 * (c.mag * 2 ^ Config.SHIFT) + F64.unitsPerOne) / (2 * F64.unitsPerOne)
  if c.sign then -(m : Int) else m

/-- R102: both sequences are symmetric under index reversal. -/
abbrev CoeffTable.Symmetric {n : Nat} (t : CoeffTable n) : Prop :=
  ∀ i : Fin (n + 1), t.coeff[i] = t.coeff[i.rev] ∧ t.fpcoeff[i] = t.fpcoeff[i.rev]

/-- R103: the fixed table is the float table scaled by 2^15 and rounded. -/
abbrev CoeffTable.Derived {n : Nat} (t : CoeffTable n) : Prop :=
  ∀ i : Fin (n + 1), (t.fpcoeff[i]).toInt = (t.coeff[i]).scaledTap

/-- The constraints every admissible table meets (R106).  Constraints 1 and 5 (lengths, 32-bit taps) are in the
type. -/
abbrev CoeffTable.Admissible {n : Nat} (t : CoeffTable n) : Prop :=
  t.Symmetric ∧ t.Derived ∧ (∀ i : Fin (n + 1), (t.coeff[i]).isFinite = true) ∧
    t.gain.isFinite = true ∧ 0 < t.gain.val

/-- A table with the proofs of its constraints (R105, U13: a table that breaks one is not this hardware). -/
structure AdmissibleTable (n : Nat) extends CoeffTable n where
  admissible : toCoeffTable.Admissible

/-- An admissible table: all taps zero, gain 1.0.  It only shows that there is one. -/
def CoeffTable.zeroTaps (n : Nat) : CoeffTable n where
  coeff   := Vector.replicate (n + 1) 0
  fpcoeff := Vector.replicate (n + 1) 0
  gain    := 0x3FF0000000000000

theorem CoeffTable.zeroTaps_admissible (n : Nat) : (CoeffTable.zeroTaps n).Admissible := by
  refine ⟨fun i => ?_, fun i => ?_, fun i => ?_, ?_, ?_⟩
  · simp [CoeffTable.zeroTaps]
  · simp only [CoeffTable.zeroTaps, Fin.getElem_fin, Vector.getElem_replicate]; decide +kernel
  · simp only [CoeffTable.zeroTaps, Fin.getElem_fin, Vector.getElem_replicate]; decide +kernel
  · show F64.isFinite 0x3FF0000000000000 = true; decide +kernel
  · show (0 : Int) < F64.val 0x3FF0000000000000; decide +kernel

/-- A raw table as an admissible one: itself where it meets the constraints of R106. -/
def AdmissibleTable.ofRaw {n : Nat} (t : CoeffTable n) : AdmissibleTable n :=
  if h : t.Admissible then ⟨t, h⟩ else ⟨CoeffTable.zeroTaps n, CoeffTable.zeroTaps_admissible n⟩

/-- The rounding scheme `ALT`, the value this hardware takes (R147): `BIAS(o) = 16384 - o`, `NEXT(o) = 1 - o`. -/
def Rnd.alt : Rnd where
  bias o := 16384 - (o.toNat : Int)
  next o := 1 - o

/-- Offsets a scheme can reach from 0 (R148). -/
inductive Rnd.Reachable (r : Rnd) : BitVec 15 → Prop where
  | zero : Reachable r 0
  | next {o : BitVec 15} : Reachable r o → Reachable r (r.next o)

/-- The constraint a scheme must meet (R148, constraint 2; constraint 1 is in the type). -/
def Rnd.Admissible (r : Rnd) : Prop := ∀ o, r.Reachable o → 0 ≤ r.bias o ∧ r.bias o ≤ 32767

/-- This hardware's Coefficient Table: an admissible table, which one is left open (R105). -/
def Machine.hwTable : AdmissibleTable Config.N := AdmissibleTable.ofRaw Config.rawTable

/-- This hardware's configuration (R5). -/
def Machine.hw : Params Config.N where
  table := Machine.hwTable.toCoeffTable
  rnd   := Rnd.alt
  num   := Numerics.ieee

end Sys2Proof
end

