-- ==== Sys2Proof/Machine/FixedEngine.lean ====
section
/-! DEFINITION. The Fixed Filter Engine (spec/42_fixed_engine.md): NEWENG.X (R140), PROC.X (R141 to R150, R158) and
RDSAT (R156), for any number of taps and any configuration (R6); the meanings use this hardware's. -/

namespace Sys2Proof.Machine

/-- The constructed Fixed slot (R140): line, offset and counter zero. -/
def FixedSlot.constructed (n : Nat) : FixedSlot n :=
  { hx := Vector.replicate (n + 1) 0, offs := 0, satcnt := 0 }

/-- The multiply-accumulate (R143, R109): the exact integer sum of the products of entry `i` and tap `i`. -/
def macX {n : Nat} (hx : Vector Sample16 (n + 1)) (fpcoeff : Vector (BitVec 32) (n + 1)) : Int :=
  ((hx.toList.zip fpcoeff.toList).map (fun p => s16 p.1 * p.2.toInt)).sum

/-- What one step of the Fixed engine gives (R158): the slot, the output and whether the step saturated. -/
structure FixedStep (n : Nat) where
  slot  : FixedSlot n
  y     : Sample16
  event : Bool
  deriving DecidableEq, Repr

/-- One step of the Fixed engine (R141, R158): the bias is of the offset the step found (R145), the offset
advances once, always (R146). -/
def stepX {n : Nat} (p : Params n) (slot : FixedSlot n) (s : Sample16) : FixedStep n :=
  let hx := shiftIn slot.hx s
  let q := asr15 (macX hx p.table.fpcoeff + p.rnd.bias slot.offs)
  { slot  := { hx := hx, offs := p.rnd.next slot.offs, satcnt := countEvent (satEvent q) slot.satcnt }
    y     := u16 (sat16 q)
    event := satEvent q }

/-- NEWENG.X (R140). -/
def execNewengX (s : State) : Host.Outcome State Fault Refusal :=
  .next (respondOk false 0 { s with fixed := FixedSlot.constructed Config.N })

/-- PROC.X (R141). -/
def execProcX (sample : Sample16) (s : State) : Host.Outcome State Fault Refusal :=
  let r := stepX hw s.fixed sample
  .next (respondOk r.event (resFixed r.y) { s with fixed := r.slot })

/-- RDSAT (R156): the counter is read and not cleared. -/
def execRdsat (s : State) : Host.Outcome State Fault Refusal :=
  .next (respondOk false (resCount s.fixed.satcnt) s)

end Sys2Proof.Machine
end

