-- ==== Sys2Proof/Machine/FloatEngine.lean ====
section
/-! DEFINITION. The Float Filter Engine (spec/41_float_engine.md): NEWENG.F (R120) and PROC.F (R121 to R125, R128),
for any number of taps and any configuration (R6); the meanings use this hardware's. -/

namespace Sys2Proof.Machine

/-- The constructed Float slot (R120): every entry +0.0. -/
def FloatSlot.constructed (n : Nat) : FloatSlot n := { hf := Vector.replicate (n + 1) 0 }

/-- The multiply-sum (R123, R109): from +0.0, the products of entry `i` and tap `i` added in ascending order, each
product and each sum rounded. -/
def msumF {n : Nat} (num : Numerics) (hf coeff : Vector F64 (n + 1)) : F64 :=
  (hf.toList.zip coeff.toList).foldl (fun a p => num.fadd a (num.fmul p.1 p.2)) 0

/-- The output of the Float engine for the line as it stands (R123, R125): the sum divided once by the gain. -/
def outputF {n : Nat} (p : Params n) (slot : FloatSlot n) : F64 :=
  p.num.fdiv (msumF p.num slot.hf p.table.coeff) p.table.gain

/-- A NaN output carries a free pattern (R128, U3), and the count of draws advances; any other value is what it
is. -/
def settleNaN (y : F64) (draws : Nat) : F64 × Nat :=
  if y.isNaN then (F64.nanOf (Config.nanDraw draws), draws + 1) else (y, draws)

/-- One step of the Float engine (R121): shift and insert, multiply-sum, divide; with the count of NaN draws. -/
def stepF {n : Nat} (p : Params n) (st : FloatSlot n × Nat) (s : F64) : (FloatSlot n × Nat) × F64 :=
  let slot : FloatSlot n := { hf := shiftIn st.1.hf s }
  let y := settleNaN (outputF p slot) st.2
  ((slot, y.2), y.1)

/-- NEWENG.F (R120). -/
def execNewengF (s : State) : Host.Outcome State Fault Refusal :=
  .next (respondOk false 0 { s with float := FloatSlot.constructed Config.N })

/-- PROC.F (R121). -/
def execProcF (sample : F64) (s : State) : Host.Outcome State Fault Refusal :=
  let r := stepF hw (s.float, s.nanDraws) sample
  .next (respondOk false (resFloat r.2) { s with float := r.1.1, nanDraws := r.1.2 })

end Sys2Proof.Machine
end

