-- ==== Sys2Proof/Machine/StreamProcessor.lean ====
section
/-! DEFINITION. The Stream Processor (spec/43_stream_processor.md): FBUF.F (R170) and FBUF.X (R173), one element loop
over either engine. -/

namespace Sys2Proof.Machine

/-- The element loop (R172, R58): for each of `k` elements from address `a` upward, read it, run one engine step
on it, write the output to its place, and go on.  `w` is the sample width in bytes and `σ` what the engine step
carries along.  `none` would be an element that is not allocated, which admission has excluded. -/
def streamLoop {σ : Type} (w : Nat) (step : σ → Nat → σ × Nat) : Nat → Nat → σ → Memory → Option (σ × Memory)
  | 0, _, st, m => some (st, m)
  | k + 1, a, st, m =>
    match m.read a w with
    | none => none
    | some v => streamLoop w step k (a + w) (step st v).1 (m.write a w (step st v).2)

/-- An FBUF command (R170, R173), in the order of R195: the layout check on the length alone (R171), the admission
of the range (R54), the element loop.  `finish` is the state after the last element. -/
def streamBuffer {σ : Type} (w : Nat) (step : σ → Nat → σ × Nat) (st : σ) (finish : σ → Memory → State)
    (base len : Addr) (s : State) : Host.Outcome State Fault Refusal :=
  if len.toNat % w ≠ 0 then raiseError .invalidBufferLayout s
  else
    match admission w base.toNat len.toNat s.mem with
    | some r => .refused r
    | none =>
      match streamLoop w step (len.toNat / w) base.toNat st s.mem with
      | some (st', m) => .next (finish st' m)
      | none => .refused .unallocatedBuffer

/-- One element of FBUF.F (R170): a Float engine step on the number read, giving the number to write. -/
def elementF {n : Nat} (p : Params n) (st : FloatSlot n × Nat) (v : Nat) : (FloatSlot n × Nat) × Nat :=
  ((stepF p st (f64of v)).1, bits64 (stepF p st (f64of v)).2)

/-- One element of FBUF.X (R173): a Fixed engine step on the number read, giving the number to write; the flag
`any` remembers an event. -/
def elementX {n : Nat} (p : Params n) (st : FixedSlot n × Bool) (v : Nat) : (FixedSlot n × Bool) × Nat :=
  let r := stepX p st.1 (sample16Of v)
  ((r.slot, st.2 || r.event), r.y.toNat)

/-- FBUF.F (R170). -/
def execFbufF (base len : Addr) (s : State) : Host.Outcome State Fault Refusal :=
  streamBuffer widthF (elementF hw) (s.float, s.nanDraws)
    (fun st m => respondOk false 0 { s with float := st.1, nanDraws := st.2, mem := m }) base len s

/-- FBUF.X (R173). -/
def execFbufX (base len : Addr) (s : State) : Host.Outcome State Fault Refusal :=
  streamBuffer widthX (elementX hw) (s.fixed, false)
    (fun st m => respondOk st.2 0 { s with fixed := st.1, mem := m }) base len s

end Sys2Proof.Machine
end

