-- ==== Sys2Proof/Machine/Dispatch.lean ====
section
/-! DEFINITION. The meaning of each command, one arm per constructor (spec/30_encoding.md R73). -/

namespace Sys2Proof.Machine

def exec (i : Instr) (s : State) : Host.Outcome State Fault Refusal :=
  match i with
  | .newengF => Sys2Proof.Machine.execNewengF s
  | .newengX => Sys2Proof.Machine.execNewengX s
  | .procF sample => Sys2Proof.Machine.execProcF sample s
  | .procX sample => Sys2Proof.Machine.execProcX sample s
  | .fbufF base len => Sys2Proof.Machine.execFbufF base len s
  | .fbufX base len => Sys2Proof.Machine.execFbufX base len s
  | .rdsat => Sys2Proof.Machine.execRdsat s

end Sys2Proof.Machine
end

