-- ==== Sys2Proof/Machine/Step.lean ====
section
/-! DEFINITION. One step of the block: accept the next packet, decode it, run it (spec/30_encoding.md R70, R76, R77,
spec/60_exceptions.md R195). -/

namespace Sys2Proof.Machine

/-- The block with an accepted packet: an illegal packet raises IllegalCommand and nothing else is looked at
(R77, R191, R195); a legal one is executed. -/
def runPacket (cp : Packet) (s : State) : Host.Outcome State Fault Refusal :=
  match decode cp with
  | some i => exec i s
  | none => raiseError .illegalCommand s

/-- One step.  With no packet at the command port the block is idle and nothing changes its state (R7, R70,
R237; assumption log 4). -/
def step (s : State) : Host.Outcome State Fault Refusal :=
  match acceptCommand s with
  | some (cp, s') => runPacket cp s'
  | none => .next s

/-- `s` with the packet of an opcode-table word presented as the next one at the command port, from which `step`
accepts its next command (R70, R71; assumption log 5). -/
def State.withFetchWord (s : State) (nbits w : Nat) : State := presentNext (tableWordPacket nbits w) s

end Sys2Proof.Machine
end

