-- ==== Sys2Proof/Machine/Assembler.lean ====
section
/-! DEFINITION. The spec's textual form of a command (spec/30_encoding.md R80) and the expansions of the
pseudo-instructions and of the source's operation names (R81). -/

namespace Sys2Proof.Machine

/-- A `<real>` operand (R80): a decimal literal `digits * 10^exp10` with a sign, or the 64-bit pattern. -/
inductive RealLit where
  | decimal (negative : Bool) (digits : Nat) (exp10 : Int)
  | pattern (bits : Nat)
  deriving DecidableEq, Repr

/-- The binary64 value of a literal (R80): nearest to the decimal, ties to even; or the pattern itself. -/
def RealLit.value : RealLit → Option F64
  | .decimal negative digits exp10 =>
    some (F64.pack negative
      (F64.roundMag (digits * 10 ^ exp10.toNat * F64.unitsPerOne) (10 ^ (-exp10).toNat)))
  | .pattern bits => if bits < 2 ^ 64 then some (BitVec.ofNat 64 bits) else none

/-- A line of the textual form, its numbers not yet checked (R80). -/
inductive AsmLine where
  | newengF
  | newengX
  | procF (sample : RealLit)
  | procX (sample : Int)
  | fbufF (base len : Nat)
  | fbufX (base len : Nat)
  | rdsat
  deriving DecidableEq, Repr

/-- The command of a line; `none` is an assembler error: an integer out of range, or an address or length of
more than 32 bits (R80). -/
def AsmLine.assemble : AsmLine → Option Instr
  | .newengF => some .newengF
  | .newengX => some .newengX
  | .procF sample => sample.value.map .procF
  | .procX sample => if -32768 ≤ sample ∧ sample ≤ 32767 then some (.procX (u16 sample)) else none
  | .fbufF base len =>
    if base < 2 ^ 32 ∧ len < 2 ^ 32 then some (.fbufF (BitVec.ofNat 32 base) (BitVec.ofNat 32 len)) else none
  | .fbufX base len =>
    if base < 2 ^ 32 ∧ len < 2 ^ 32 then some (.fbufX (BitVec.ofNat 32 base) (BitVec.ofNat 32 len)) else none
  | .rdsat => some .rdsat

/-- The value of a hexadecimal digit. -/
def hexDigit (c : Char) : Option Nat :=
  if '0' ≤ c ∧ c ≤ '9' then some (c.toNat - '0'.toNat)
  else if 'a' ≤ c ∧ c ≤ 'f' then some (c.toNat - 'a'.toNat + 10)
  else if 'A' ≤ c ∧ c ≤ 'F' then some (c.toNat - 'A'.toNat + 10)
  else none

/-- The value of a decimal digit. -/
def decDigit (c : Char) : Option Nat := if '0' ≤ c ∧ c ≤ '9' then some (c.toNat - '0'.toNat) else none

/-- Digits in a base, most significant first, on top of a value already read. -/
def digitsFrom (digit : Char → Option Nat) (radix : Nat) : Nat → List Char → Option Nat
  | v, [] => some v
  | v, c :: cs => (digit c).bind (fun d => digitsFrom digit radix (v * radix + d) cs)

/-- A non-empty decimal number. -/
def parseDec (cs : List Char) : Option Nat := if cs.isEmpty then none else digitsFrom decDigit 10 0 cs

/-- `<base>` or `<len>`: decimal, or `0x` and hexadecimal digits. -/
def parseNat : List Char → Option Nat
  | '0' :: 'x' :: cs => if cs.isEmpty then none else digitsFrom hexDigit 16 0 cs
  | cs => parseDec cs

/-- `<int>`: a decimal integer with an optional minus sign. -/
def parseInt : List Char → Option Int
  | '-' :: cs => (parseDec cs).map (fun v => -(v : Int))
  | cs => (parseDec cs).map (fun v => (v : Int))

/-- The part of a line before the first of some characters, and what follows it. -/
def splitAtChar (p : Char → Bool) (cs : List Char) : List Char × List Char :=
  (cs.takeWhile (fun c => !p c), (cs.dropWhile (fun c => !p c)).drop 1)

/-- An unsigned decimal real: digits, an optional fraction, an optional exponent. -/
def parseUnsignedReal (negative : Bool) (cs : List Char) : Option RealLit :=
  let (mantissa, exponent) := splitAtChar (fun c => c == 'e' || c == 'E') cs
  let (whole, fraction) := splitAtChar (· == '.') mantissa
  let exp10 := if cs.any (fun c => c == 'e' || c == 'E') then parseInt exponent else some 0
  match parseDec (whole ++ fraction), exp10 with
  | some digits, some e => some (.decimal negative digits (e - fraction.length))
  | _, _ => none

/-- `<real>` (R80): a decimal literal, or `0x` followed by 16 hexadecimal digits for the bit pattern. -/
def parseReal : List Char → Option RealLit
  | '0' :: 'x' :: cs => if cs.length = 16 then (digitsFrom hexDigit 16 0 cs).map .pattern else none
  | '-' :: cs => parseUnsignedReal true cs
  | cs => parseUnsignedReal false cs

/-- White space between the parts of a line. -/
def isBlank (c : Char) : Bool := c == ' ' || c == '\t'

/-- A field without the white space around it. -/
def trim (cs : List Char) : List Char := ((cs.dropWhile isBlank).reverse.dropWhile isBlank).reverse

/-- `<base>, <len>`. -/
def parseBuffer (make : Nat → Nat → AsmLine) (cs : List Char) : Option AsmLine :=
  if cs.contains ',' then
    let (base, len) := splitAtChar (· == ',') cs
    match parseNat (trim base), parseNat (trim len) with
    | some b, some l => some (make b l)
    | _, _ => none
  else none

/-- One line of the textual form (R80): `;` starts a comment. -/
def parseLine (line : List Char) : Option AsmLine :=
  let code := trim (splitAtChar (· == ';') line).1
  let (word, rest) := splitAtChar isBlank code
  let operand := trim rest
  if word = "NEWENG.F".toList then (if operand.isEmpty then some .newengF else none)
  else if word = "NEWENG.X".toList then (if operand.isEmpty then some .newengX else none)
  else if word = "PROC.F".toList then (parseReal operand).map .procF
  else if word = "PROC.X".toList then (parseInt operand).map .procX
  else if word = "FBUF.F".toList then parseBuffer .fbufF operand
  else if word = "FBUF.X".toList then parseBuffer .fbufX operand
  else if word = "RDSAT".toList then (if operand.isEmpty then some .rdsat else none)
  else none

/-- What may be written for one or more commands (R81). -/
inductive Pseudo where
  /-- `newEngine(Float)`. -/
  | newEngineFloat
  /-- `newEngine(Fixed)`. -/
  | newEngineFixed
  /-- `process(s)` on a Float engine. -/
  | processFloat (s : F64)
  /-- `process(s)` on a Fixed engine. -/
  | processFixed (s : Sample16)
  /-- `filterBuffer(buffer, Float)`: never an implied NEWENG (R176). -/
  | filterBufferFloat (base len : Addr)
  /-- `filterBuffer(buffer, Fixed)`: never an implied NEWENG (R176). -/
  | filterBufferFixed (base len : Addr)
  /-- `RESET`. -/
  | reset
  /-- `IMPULSE.F a, z`. -/
  | impulseF (a : F64) (z : Nat)
  /-- `IMPULSE.X a, z`. -/
  | impulseX (a : Sample16) (z : Nat)
  deriving DecidableEq, Repr

/-- The commands a pseudo-instruction stands for (R81). -/
def Pseudo.expand : Pseudo → List Instr
  | .newEngineFloat => [.newengF]
  | .newEngineFixed => [.newengX]
  | .processFloat s => [.procF s]
  | .processFixed s => [.procX s]
  | .filterBufferFloat base len => [.fbufF base len]
  | .filterBufferFixed base len => [.fbufX base len]
  | .reset => [.newengF, .newengX]
  | .impulseF a z => .procF a :: List.replicate z (.procF 0)
  | .impulseX a z => .procX a :: List.replicate z (.procX 0)

end Sys2Proof.Machine
end

