-- ==== Sys2Proof/Machine/HostPort.lean ====
section
/-! DEFINITION. What the host can do to the block besides presenting packets, and what it sees (spec/70_reset_and_hazards.md
R220, R222, R237, R238): launch a run, let it end, observe it, reset the block between two commands or during one. -/

namespace Sys2Proof.Machine

/-- A launch (R237): a block state, which may be any reachable state, a launch memory and a finite list of command
packets.  The run has produced no response yet, so what commands before it were answered is not kept. -/
def State.launch (s : State) (mem : Memory) (packets : List Packet) : State :=
  { s with mem := mem, commands := packets, responses := [] }

/-- `k` steps of the block, one after another (R237); the first refusal ends the run. -/
def runSteps : Nat → State → Host.Outcome State Fault Refusal
  | 0, s => .next s
  | k + 1, s =>
    match step s with
    | .next t => runSteps k t
    | .fault r => .fault r
    | .refused r => .refused r

/-- A run (R237): the launch, and then one step for each packet.  Its next state is the one in which the response to
the last packet has been produced; the empty list ends at once; a run that contains a refused command has no end. -/
def State.run (s : State) (mem : Memory) (packets : List Packet) : Host.Outcome State Fault Refusal :=
  runSteps packets.length (s.launch mem packets)

/-- What a run shows (R237): the response packets, the buffer memory and, for a model that can see them, the two
slots. -/
structure Observation where
  responses : List Packet
  mem       : Memory
  float     : FloatSlot Config.N
  fixed     : FixedSlot Config.N
  deriving DecidableEq, Repr

/-- The observation of a run (R237), from the state at its end; the responses listed there are the run's own. -/
def State.observe (s : State) : Observation :=
  { responses := s.responses.map Response.packet, mem := s.mem, float := s.float, fixed := s.fixed }

/-- Hardware reset of an idle block (R33, R220): both slots as constructed, buffer memory not touched. -/
def hardReset (s : State) : State :=
  { s with float := FloatSlot.constructed Config.N, fixed := FixedSlot.constructed Config.N }

/-- Buffer memory when the first `k` elements of an FBUF loop have been replaced, or all of them when there are fewer
than `k`.  With a bad length no element is ever replaced (R171).  DESIGN CHOICE (assumption log 9): over a range that is
not admitted the memory is left as it was; R54 and R194 give such a command no meaning, and R222 does not say what a
reset during it leaves. -/
def memoryAfter {σ : Type} (w : Nat) (step : σ → Nat → σ × Nat) (st : σ) (base len : Addr) (k : Nat)
    (m : Memory) : Memory :=
  if len.toNat % w ≠ 0 ∨ (admission w base.toNat len.toNat m).isSome then m
  else
    match streamLoop w step (min k (len.toNat / w)) base.toNat st m with
    | some r => r.2
    | none => m

/-- Buffer memory when a hardware reset abandons command `i` after `k` of its elements (R222, U11). -/
def abandonedMemory (i : Instr) (k : Nat) (s : State) : Memory :=
  match i with
  | .newengF => s.mem
  | .newengX => s.mem
  | .procF _ => s.mem
  | .procX _ => s.mem
  | .fbufF base len => memoryAfter widthF (elementF hw) (s.float, s.nanDraws) base len k s.mem
  | .fbufX base len => memoryAfter widthX (elementX hw) (s.fixed, false) base len k s.mem
  | .rdsat => s.mem

/-- A hardware reset while the accepted command `i` is executing (R222): no response is produced for it, the block
is in its reset state, and an FBUF leaves an unspecified number `k` of leading elements replaced.  `k` is free:
every `k` is a possible behaviour.  R54 and R194 give an FBUF over a range that is not admitted no
meaning, so the state this gives for it is the model's choice (`memoryAfter`, assumption log 9). -/
def resetDuring (i : Instr) (k : Nat) (s : State) : State :=
  hardReset { s with mem := abandonedMemory i k s }

end Sys2Proof.Machine
end

