-- ==== Sys2Proof/Safety.lean ====
section
/-! DEFINITION. The terms claims are stated in: an outcome that is a next state, the range an FBUF is admitted to
(spec/20_memory.md R54), the reading of a buffer as samples, the invariant of the machine, and equality up to the
pattern of a NaN (spec/41_float_engine.md R128). -/

namespace Sys2Proof

/-- The exact rational value of a finite binary64 number. -/
def F64.toRat (x : F64) : ℚ := (F64.val x : ℚ) / (F64.unitsPerOne : ℚ)

namespace Machine

/-- The outcome is a next state, whose response the host receives (R194 keeps this apart from no step). -/
def IsNext (o : Host.Outcome State Fault Refusal) : Prop := ∃ t, o = .next t

/-- The outcome is a refusal: the spec gives the command no meaning (R194). -/
def IsRefused (o : Host.Outcome State Fault Refusal) : Prop := ∃ r, o = .refused r

/-- R54, word for word: the three conditions under which an FBUF with a good length has a meaning. -/
def Admitted (w base len : Nat) (m : Memory) : Prop :=
  base % w = 0 ∧ base + len ≤ 2 ^ 32 ∧ ∀ a, base ≤ a → a < base + len → (m.byte a).isSome = true

/-- The memory holds the numbers `vs` as consecutive `w`-byte elements from address `a`. -/
def Holds (w : Nat) (m : Memory) : Nat → List Nat → Prop
  | _, [] => True
  | a, v :: vs => m.read a w = some v ∧ Holds w m (a + w) vs

/-- The engine step folded over elements (R172): the final state and the outputs in order. -/
def foldElements {σ : Type} (step : σ → Nat → σ × Nat) : σ → List Nat → σ × List Nat
  | st, [] => (st, [])
  | st, v :: vs => ((foldElements step (step st v).1 vs).1, (step st v).2 :: (foldElements step (step st v).1 vs).2)

/-- Commands run one after another (R70, R237); the first refusal ends the run. -/
def execAll : List Instr → State → Host.Outcome State Fault Refusal
  | [], s => .next s
  | i :: is, s =>
    match exec i s with
    | .next t => execAll is t
    | .fault r => .fault r
    | .refused r => .refused r

/-- The machine's invariant: memory in canonical form (R30, R50) and the offset one of the two values scheme `ALT`
takes (R24, R147). -/
def Inv (s : State) : Prop := s.mem.wf ∧ s.fixed.offs.toNat ≤ 1

/-- `z` is the binary64 number nearest to the exact value `v`, ties to even, with the default result for overflow
(R124): below the midpoint of the largest finite number and the next power of two, `z` is finite, at least as
near as every finite number, and even where another number is equally near; from that midpoint on, `z` is the
infinity with the sign of `v`. -/
def Rounds (v : ℚ) (z : F64) : Prop :=
  if |v| < (2 ^ 54 - 1) * 2 ^ 970 then
    z.isFinite = true ∧ ∀ w : F64, w.isFinite = true →
      |z.toRat - v| ≤ |w.toRat - v| ∧ (|z.toRat - v| = |w.toRat - v| → w.toRat = z.toRat ∨ z.fraction % 2 = 0)
  else z.isInf = true ∧ (z.sign = true ↔ v < 0)

/-- Two binary64 numbers are the same, or are both NaNs (R128: only "is a NaN" is fixed). -/
def SameUpToNaN (x y : F64) : Prop := x = y ∨ (x.isNaN = true ∧ y.isNaN = true)

end Machine

end Sys2Proof
end

