-- ==== Sys2Proof/Certificates/Slice0/Obligations.lean ====
section
/-! DEFINITION. What is claimed of the model, each claim from the spec's numbered rules.  Nothing is proved here. -/

open Sys2Proof Sys2Proof.Machine

/-! ## Packets -/

/-- R83: the worked command packets decode as the spec says, and the worked responses have the spec's packets. -/
def Obligations.WorkedPacketsAsPrinted : Prop :=
  decode 0x100000000000000000000000 = some .newengF ∧
  decode 0x180000000000000000000000 = some .newengX ∧
  decode 0x200000003FF0000000000000 = some (.procF 0x3FF0000000000000) ∧
  decode 0x20000000BFC0000000000000 = some (.procF 0xBFC0000000000000) ∧
  decode 0x2800000000000000000003E8 = some (.procX (BitVec.ofInt 16 1000)) ∧
  decode 0x28000000000000000000FC18 = some (.procX (BitVec.ofInt 16 (-1000))) ∧
  decode 0x280000000000000000008000 = some (.procX (BitVec.ofInt 16 (-32768))) ∧
  decode 0x300000000000003000001000 = some (.fbufF 0x1000 48) ∧
  decode 0x380000000000000A00002000 = some (.fbufX 0x2000 10) ∧
  decode 0x480000000000000000000000 = some .rdsat ∧
  decode 0x28000000FFFFFFFFFFFFFC18 = none ∧
  decode 0x400000000000000000000000 = none ∧
  Response.packet ⟨.ok, false, resFloat 0x3FD0000000000000⟩ = 0x000000003FD0000000000000 ∧
  Response.packet ⟨.ok, false, resFixed (u16 (-125))⟩ = 0x00000000000000000000FF83 ∧
  Response.packet ⟨.ok, true, resFixed (u16 32767)⟩ = 0x080000000000000000007FFF ∧
  Response.packet ⟨.ok, false, resCount 2⟩ = 0x000000000000000000000002 ∧
  Response.packet ⟨.invalidBufferLayout, false, 0⟩ = 0x100000000000000000000000 ∧
  Response.packet ⟨.illegalCommand, false, 0⟩ = 0x200000000000000000000000

/-- R74, R76, D22: decode and encode are inverse to each other: every command decodes from its packet with every
operand bit, and no other packet decodes to it. -/
def Obligations.DecodeIffEncode : Prop :=
  ∀ (cp : Packet) (i : Instr), decode cp = some i ↔ encode i = cp

/-- R77, the list of illegal packets, in the packet's numbers: `OPC` 0 or above 4; `OPC` 4 with `P` = 0; a
non-zero `Z`; an operand that R74 does not allow. -/
def Obligations.IllegalPacketsAreTheNamedOnes : Prop :=
  ∀ cp : Packet,
    let opc := cp.toNat / 2 ^ 92
    let path := cp.toNat / 2 ^ 91 % 2
    let z := cp.toNat / 2 ^ 64 % 2 ^ 27
    let opd := cp.toNat % 2 ^ 64
    decode cp = none ↔
      opc = 0 ∨ 5 ≤ opc ∨ (opc = 4 ∧ path = 0) ∨ z ≠ 0 ∨ ((opc = 1 ∨ opc = 4) ∧ opd ≠ 0) ∨
        (opc = 2 ∧ path = 1 ∧ 2 ^ 16 ≤ opd)

/-- R191: a packet that is none of the seven commands with a legal operand is answered with `STAT` = 2, `SATF` = 0,
`RES` = 0, and nothing else changes. -/
def Obligations.OtherPacketsRaiseIllegalCommand : Prop :=
  ∀ (s : State) (cp : Packet) (rest : List Packet), s.commands = cp :: rest → (∀ i : Instr, encode i ≠ cp) →
    step s = .next { s with commands := rest, responses := s.responses ++ [⟨.illegalCommand, false, 0⟩] }

/-- R70, R76: with a packet at the port that decodes to `i`, the step is `exec i` on the state that has accepted
the packet; nothing else is added around it. -/
def Obligations.StepRunsTheDecodedCommand : Prop :=
  ∀ (s : State) (cp : Packet) (rest : List Packet) (i : Instr), s.commands = cp :: rest → decode cp = some i →
    i.wellFormed = true → step s = exec i { s with commands := rest }

/-- The model's choice (assumption log 4), no rule of the spec: with no packet at the port the block is idle and a step
changes nothing. -/
def Obligations.IdleBlockStaysIdle : Prop :=
  ∀ s : State, s.commands = [] → step s = .next s

/-- R70: every command that has a step consumes exactly the packet at the head of the port and produces exactly one
response, after all earlier ones; so responses come in the order of the commands. -/
def Obligations.OneResponsePerCommand : Prop :=
  ∀ s t : State, s.commands ≠ [] → step s = .next t →
    ∃ (cp : Packet) (r : Response), s.commands = cp :: t.commands ∧ t.responses = s.responses ++ [r]

/-- R72: bits 90 to 64 of every response packet are zero, `STAT` is 0, 1 or 2, `RES` is zero when `STAT` is not 0,
and `SATF` is zero unless the command is PROC.X or FBUF.X and `STAT` is 0. -/
def Obligations.ResponsesKeepTheFormat : Prop :=
  ∀ (s t : State) (cp : Packet) (r : Response), s.commands = cp :: t.commands → step s = .next t →
    t.responses = s.responses ++ [r] →
      r.packet.toNat / 2 ^ 64 % 2 ^ 27 = 0 ∧ r.packet.toNat / 2 ^ 92 ≤ 2 ∧
      r.packet.toNat % 2 ^ 64 = r.res.toNat ∧ (r.packet.toNat / 2 ^ 91 % 2 = 1 ↔ r.satf = true) ∧
      (r.packet.toNat / 2 ^ 92 = 0 ↔ r.stat = .ok) ∧
      (r.packet.toNat / 2 ^ 92 = 1 ↔ r.stat = .invalidBufferLayout) ∧
      (r.packet.toNat / 2 ^ 92 = 2 ↔ r.stat = .illegalCommand) ∧
      (r.stat ≠ .ok → r.res = 0) ∧
      (r.satf = true → r.stat = .ok ∧
        ((∃ x, decode cp = some (.procX x)) ∨ ∃ base len, decode cp = some (.fbufX base len)))

/-! ## Reset and construction -/

/-- R33, R220, the table of reset values: hardware reset (of any block, buffer memory not touched), the state after
reset, and the two construction commands. -/
def Obligations.ResetAndConstructionValues : Prop :=
  (∀ s : State,
    (∀ i (h : i < Config.N + 1), (hardReset s).float.hf[i] = 0) ∧
    (∀ i (h : i < Config.N + 1), (hardReset s).fixed.hx[i] = 0) ∧
    (hardReset s).fixed.offs = 0 ∧ (hardReset s).fixed.satcnt = 0 ∧ (hardReset s).mem = s.mem) ∧
  (∀ i (h : i < Config.N + 1), State.reset.float.hf[i] = 0) ∧
  (∀ i (h : i < Config.N + 1), State.reset.fixed.hx[i] = 0) ∧
  State.reset.fixed.offs = 0 ∧ State.reset.fixed.satcnt = 0 ∧
  (∀ s : State, ∃ t, exec .newengF s = .next t ∧ (∀ i (h : i < Config.N + 1), t.float.hf[i] = 0) ∧
    t.fixed = s.fixed ∧ t.mem = s.mem) ∧
  (∀ s : State, ∃ t, exec .newengX s = .next t ∧ (∀ i (h : i < Config.N + 1), t.fixed.hx[i] = 0) ∧
    t.fixed.offs = 0 ∧ t.fixed.satcnt = 0 ∧ t.float = s.float ∧ t.mem = s.mem)

/-- R120: NEWENG.F completes in every state, sets the float history to +0.0, responds `STAT` = 0, `SATF` = 0,
`RES` = 0, and writes nothing else. -/
def Obligations.NewengFConstructsTheFloatSlot : Prop :=
  encode .newengF = (0x10000000 : BitVec 32) ++ (0 : BitVec 64) ∧
  ∀ s : State, ∃ t, exec .newengF s = .next t ∧ (∀ i (h : i < Config.N + 1), t.float.hf[i] = 0) ∧
    t = { s with float := t.float, responses := s.responses ++ [⟨.ok, false, 0⟩] }

/-- R140: NEWENG.X completes in every state, sets the fixed history, the offset and the counter to zero, responds
`STAT` = 0, `SATF` = 0, `RES` = 0, and writes nothing else. -/
def Obligations.NewengXConstructsTheFixedSlot : Prop :=
  encode .newengX = (0x18000000 : BitVec 32) ++ (0 : BitVec 64) ∧
  ∀ s : State, ∃ t, exec .newengX s = .next t ∧ (∀ i (h : i < Config.N + 1), t.fixed.hx[i] = 0) ∧
    t.fixed.offs = 0 ∧ t.fixed.satcnt = 0 ∧
    t = { s with fixed := t.fixed, responses := s.responses ++ [⟨.ok, false, 0⟩] }

/-- R221: NEWENG.F and NEWENG.X, in either order, bring both slots to their values after a hardware reset. -/
def Obligations.NewengPairEqualsHardwareReset : Prop :=
  ∀ s : State, ∃ t u, execAll Pseudo.reset.expand s = .next t ∧ execAll [.newengX, .newengF] s = .next u ∧
    t.float = (hardReset s).float ∧ t.fixed = (hardReset s).fixed ∧
    u.float = (hardReset s).float ∧ u.fixed = (hardReset s).fixed ∧
    t.float = State.reset.float ∧ t.fixed = State.reset.fixed ∧ t.mem = s.mem ∧ u.mem = s.mem

/-- R222, U11: a hardware reset during FBUF.X over an admitted range gives no response, leaves both slots in the
reset state, and leaves the first `k` elements replaced by the outputs of that many PROC.X and the rest original;
every `k` up to the element count is possible. -/
def Obligations.ResetDuringFbufXLeavesLeadingElements : Prop :=
  ∀ (s : State) (base len : Addr) (k : Nat), len.toNat % 2 = 0 → Admitted 2 base.toNat len.toNat s.mem →
    k ≤ len.toNat / 2 →
    ∃ (ins : List Nat) (u : State) (rs : List Response),
      ins.length = len.toNat / 2 ∧ Holds 2 s.mem base.toNat ins ∧
      execAll ((ins.take k).map fun v => Instr.procX (BitVec.ofNat 16 v)) s = .next u ∧
      u.responses = s.responses ++ rs ∧
      Holds 2 (resetDuring (.fbufX base len) k s).mem base.toNat ((rs.map fun r => r.res.toNat) ++ ins.drop k) ∧
      (∀ a, a < base.toNat ∨ base.toNat + len.toNat ≤ a →
        (resetDuring (.fbufX base len) k s).mem.byte a = s.mem.byte a) ∧
      (resetDuring (.fbufX base len) k s).responses = s.responses ∧
      (resetDuring (.fbufX base len) k s).float = State.reset.float ∧
      (resetDuring (.fbufX base len) k s).fixed = State.reset.fixed

/-! ## The Coefficient Table -/

/-- R102, R103, R106: the hardware's table is symmetric, the real taps being compared as 64-bit patterns, which is the
model's choice (assumption log 11: a +0.0 tap mirrored by -0.0 is shut out); its integer taps are its real taps times 2^15 rounded to the
nearest integer, a half away from zero; its real taps are finite, and its gain is finite and above zero. -/
def Obligations.HardwareTableIsAdmissible : Prop :=
  (∀ i (h : i < Config.N + 1),
    hw.table.coeff[i] = hw.table.coeff[Config.N - i] ∧ hw.table.fpcoeff[i] = hw.table.fpcoeff[Config.N - i] ∧
    (hw.table.coeff[i]).isFinite = true ∧
    (hw.table.fpcoeff[i]).toInt =
      (if (hw.table.coeff[i]).toRat < 0 then -⌊-(hw.table.coeff[i]).toRat * 32768 + 1 / 2⌋
       else ⌊(hw.table.coeff[i]).toRat * 32768 + 1 / 2⌋)) ∧
  hw.table.gain.isFinite = true ∧ 0 < hw.table.gain.toRat

/-! ## The Float engine -/

/-- R124: addition, multiplication and division of finite numbers give the exact result rounded to nearest, ties
to even, with gradual underflow and overflow to infinity; a product or quotient has the exclusive or of the signs,
and an exact zero sum is +0.0 unless both operands are negative zeros. -/
def Obligations.ArithmeticIsCorrectlyRounded : Prop :=
  ∀ x y : F64, x.isFinite = true → y.isFinite = true →
    Rounds (x.toRat + y.toRat) (Numerics.ieee.fadd x y) ∧
    (x.toRat + y.toRat = 0 → Numerics.ieee.fadd x y = if x.sign && y.sign then 0x8000000000000000 else 0) ∧
    Rounds (x.toRat * y.toRat) (Numerics.ieee.fmul x y) ∧ (Numerics.ieee.fmul x y).sign = (x.sign ^^ y.sign) ∧
    (y.isZero = false →
      Rounds (x.toRat / y.toRat) (Numerics.ieee.fdiv x y) ∧ (Numerics.ieee.fdiv x y).sign = (x.sign ^^ y.sign))

/-- R124, R128: the default results for operands that are not finite, and for a zero divisor; an infinite or zero
result of a product or a quotient has the exclusive or of the signs. -/
def Obligations.NonFiniteOperandsGiveDefaultResults : Prop :=
  ∀ x y : F64,
    ((x.isNaN = true ∨ y.isNaN = true) →
      (Numerics.ieee.fadd x y).isNaN = true ∧ (Numerics.ieee.fmul x y).isNaN = true ∧ (Numerics.ieee.fdiv x y).isNaN = true) ∧
    (x.isInf = true → y.isInf = true →
      (Numerics.ieee.fdiv x y).isNaN = true ∧
      (if x.sign = y.sign then Numerics.ieee.fadd x y = x else (Numerics.ieee.fadd x y).isNaN = true)) ∧
    (x.isInf = true → y.isFinite = true → Numerics.ieee.fadd x y = x ∧ Numerics.ieee.fadd y x = x ∧
      (Numerics.ieee.fdiv y x).isZero = true ∧ (Numerics.ieee.fdiv y x).sign = (y.sign ^^ x.sign) ∧
      (Numerics.ieee.fdiv x y).isInf = true ∧ (Numerics.ieee.fdiv x y).sign = (x.sign ^^ y.sign)) ∧
    (x.isInf = true → y.isZero = true → (Numerics.ieee.fmul x y).isNaN = true ∧ (Numerics.ieee.fmul y x).isNaN = true) ∧
    (x.isInf = true → y.isZero = false → y.isNaN = false →
      (Numerics.ieee.fmul x y).isInf = true ∧ (Numerics.ieee.fmul x y).sign = (x.sign ^^ y.sign) ∧
      (Numerics.ieee.fmul y x).isInf = true ∧ (Numerics.ieee.fmul y x).sign = (y.sign ^^ x.sign)) ∧
    (x.isZero = true → y.isZero = true → (Numerics.ieee.fdiv x y).isNaN = true) ∧
    (x.isFinite = true → x.isZero = false → y.isZero = true →
      (Numerics.ieee.fdiv x y).isInf = true ∧ (Numerics.ieee.fdiv x y).sign = (x.sign ^^ y.sign))

/-- R124, the properties of `NUM` the derived rules use (U2 (b) to (e)): zeros are absorbed and adding a zero is
exact. -/
def Obligations.ZerosAreNeutralInTheNumerics : Prop :=
  (∀ z c : F64, z.isZero = true → c.isFinite = true → (Numerics.ieee.fmul z c).isZero = true) ∧
  (∀ z : F64, z.isZero = true → Numerics.ieee.fadd 0 z = 0) ∧
  (∀ x z : F64, x.isFinite = true → (x.isZero = false ∨ x = 0) → z.isZero = true →
    Numerics.ieee.fadd x z = x ∧ Numerics.ieee.fadd 0 x = x) ∧
  (∀ g : F64, g.isFinite = true → 0 < g.toRat → Numerics.ieee.fdiv 0 g = 0)

/-- R121, R122, R123, R125: PROC.F completes in every state with every sample: the history moves one place toward
index 0 and the sample stands at index N; the response carries the ordered sum of the rounded products, divided
once by the gain; a NaN result is some NaN (R128); everything else is unchanged. -/
def Obligations.ProcFFiltersOneSample : Prop :=
  ∀ (x : F64) (s : State), encode (.procF x) = (0x20000000 : BitVec 32) ++ x ∧
    ∃ (t : State) (facc : Nat → F64) (y r : F64), exec (.procF x) s = .next t ∧
      (∀ i (h : i < Config.N), t.float.hf[i] = s.float.hf[i + 1]) ∧ t.float.hf[Config.N] = x ∧
      facc 0 = 0 ∧
      (∀ i (h : i < Config.N + 1),
        facc (i + 1) = Numerics.ieee.fadd (facc i) (Numerics.ieee.fmul t.float.hf[i] hw.table.coeff[i])) ∧
      y = Numerics.ieee.fdiv (facc (Config.N + 1)) hw.table.gain ∧
      (y.isNaN = false → r = y) ∧ (y.isNaN = true → r.isNaN = true) ∧
      t.responses = s.responses ++ [⟨.ok, false, r⟩] ∧
      t.fixed = s.fixed ∧ t.mem = s.mem ∧ t.commands = s.commands

/-- R127: when every history entry after the shift is a zero of either sign, the output is +0.0 bit for bit; so an
all-zero input stream of any length through a constructed Float slot gives an all-zero output stream. -/
def Obligations.ZeroInputGivesPlusZero : Prop :=
  (∀ (x : F64) (s : State), x.isZero = true → (∀ i (h : i < Config.N), (s.float.hf[i + 1]).isZero = true) →
    ∃ t, exec (.procF x) s = .next t ∧ t.responses = s.responses ++ [⟨.ok, false, 0⟩]) ∧
  (∀ (xs : List F64) (s : State), (∀ x ∈ xs, x.isZero = true) →
    ∃ t, execAll (.newengF :: xs.map .procF) s = .next t ∧
      t.responses = s.responses ++ List.replicate (xs.length + 1) ⟨.ok, false, 0⟩)

/-- R131: on a constructed Float slot a finite sample `a` and then zeros return, at step `k` up to N, the product of
`a` and tap N-k over the gain, and +0.0 where that product is a zero of either sign, and +0.0 after step N. -/
def Obligations.FloatImpulseResponse : Prop :=
  ∀ (a : F64) (zeros : Nat) (s : State), a.isFinite = true →
    ∃ (t : State) (rs : List Response),
      execAll (.newengF :: (Pseudo.impulseF a zeros).expand) s = .next t ∧
      t.responses = s.responses ++ ⟨.ok, false, 0⟩ :: rs ∧ rs.length = zeros + 1 ∧
      ∀ k (h : k < rs.length), rs[k].stat = .ok ∧ rs[k].satf = false ∧
        (∀ hk : k ≤ Config.N,
          rs[k].res =
            (if (Numerics.ieee.fmul a hw.table.coeff[Config.N - k]).isZero then 0
             else Numerics.ieee.fdiv (Numerics.ieee.fmul a hw.table.coeff[Config.N - k]) hw.table.gain)) ∧
        (Config.N < k → rs[k].res = 0)

/-- R22, R23, R122, R130, R142, R154: after any run of PROC commands of one path the history is the last 81 of the old
history followed by the samples; so after NEWENG of that path, either one, the first entries are still zero until 81
samples have come. -/
def Obligations.HistoryIsTheLastSamples : Prop :=
  (∀ (xs : List F64) (s : State), ∃ t, execAll (xs.map .procF) s = .next t ∧
    t.float.hf.toList = (s.float.hf.toList ++ xs).drop xs.length) ∧
  (∀ (xs : List Sample16) (s : State), ∃ t, execAll (xs.map .procX) s = .next t ∧
    t.fixed.hx.toList = (s.fixed.hx.toList ++ xs).drop xs.length) ∧
  (∀ (xs : List F64) (s : State), xs.length ≤ Config.N + 1 → ∃ t, execAll (.newengF :: xs.map .procF) s = .next t ∧
    t.float.hf.toList = List.replicate (Config.N + 1 - xs.length) 0 ++ xs) ∧
  (∀ (xs : List Sample16) (s : State), xs.length ≤ Config.N + 1 →
    ∃ t, execAll (.newengX :: xs.map .procX) s = .next t ∧
      t.fixed.hx.toList = List.replicate (Config.N + 1 - xs.length) 0 ++ xs)

/-- R126, R128: the response and the new history of PROC.F are functions of the sample and the old history, apart
from the pattern of a NaN: two states with the same float history, whatever else differs (the model's count of NaN
draws included), give the same. -/
def Obligations.ProcFDependsOnTheFloatHistoryOnly : Prop :=
  ∀ (x : F64) (s s' : State), s.float = s'.float →
    ∃ (t t' : State) (r r' : F64), exec (.procF x) s = .next t ∧ exec (.procF x) s' = .next t' ∧
      t.float = t'.float ∧ t.responses = s.responses ++ [⟨.ok, false, r⟩] ∧
      t'.responses = s'.responses ++ [⟨.ok, false, r'⟩] ∧ SameUpToNaN r r'

/-! ## The Fixed engine -/

/-- R141, R142, R143, R149, R150 with the scheme of R147: PROC.X completes in every state with every sample.  The
history moves one place toward index 0 and the sample stands at index N; the exact sum of products plus the bias
`16384 - OFFS` is divided by 32768 and rounded down; the result is clamped to 16 bits; a clamp is the event that
sets `SATF` and adds one to `SATCNT` up to 2^32 - 1; `OFFS` alternates; everything else is unchanged.  For an `OFFS`
above 1, which no run reaches, the bias `16384 - OFFS` is the model's choice (assumption log 8). -/
def Obligations.ProcXFiltersOneSample : Prop :=
  ∀ (x : Sample16) (s : State), encode (.procX x) = (0x28000000 : BitVec 32) ++ ((0 : BitVec 48) ++ x) ∧
    ∃ (t : State) (acc q y : ℤ), exec (.procX x) s = .next t ∧
      (∀ i (h : i < Config.N), t.fixed.hx[i] = s.fixed.hx[i + 1]) ∧ t.fixed.hx[Config.N] = x ∧
      acc = ∑ i : Fin (Config.N + 1), (t.fixed.hx[i]).toInt * (hw.table.fpcoeff[i]).toInt ∧
      q = ⌊((acc + (16384 - (s.fixed.offs.toNat : ℤ)) : ℤ) : ℚ) / 32768⌋ ∧
      y = (if 32767 < q then 32767 else if q < -32768 then -32768 else q) ∧
      t.responses = s.responses ++ [⟨.ok, decide (q ≠ y), BitVec.ofNat 64 (y % 65536).toNat⟩] ∧
      t.fixed.satcnt.toNat =
        (if q ≠ y then min (s.fixed.satcnt.toNat + 1) (2 ^ 32 - 1) else s.fixed.satcnt.toNat) ∧
      (s.fixed.offs.toNat ≤ 1 → t.fixed.offs.toNat = 1 - s.fixed.offs.toNat) ∧
      t.float = s.float ∧ t.mem = s.mem ∧ t.commands = s.commands ∧ t.nanDraws = s.nanDraws

/-- R147, R148: `ALT` alternates 0 and 1, its bias is 16384 then 16383, it meets R148's constraints, both phases
round to nearest, and they differ exactly on ties, which the first rounds up and the second down. -/
def Obligations.AltRoundsToNearest : Prop :=
  Rnd.alt.bias 0 = 16384 ∧ Rnd.alt.bias 1 = 16383 ∧ Rnd.alt.next 0 = 1 ∧ Rnd.alt.next 1 = 0 ∧
  (∀ o, Rnd.alt.Reachable o ↔ o = 0 ∨ o = 1) ∧ Rnd.alt.Admissible ∧
  (∀ (o : BitVec 15) (acc : ℤ), Rnd.alt.Reachable o →
    |((asr15 (acc + Rnd.alt.bias o) : ℤ) : ℚ) - (acc : ℚ) / 32768| ≤ 1 / 2) ∧
  (∀ acc : ℤ, asr15 (acc + Rnd.alt.bias 0) ≠ asr15 (acc + Rnd.alt.bias 1) ↔ acc % 32768 = 16384) ∧
  (∀ acc : ℤ, acc % 32768 = 16384 →
    asr15 (acc + Rnd.alt.bias 0) = ⌈(acc : ℚ) / 32768⌉ ∧ asr15 (acc + Rnd.alt.bias 1) = ⌊(acc : ℚ) / 32768⌋)

/-- R148: under every admissible scheme the rounding error is below one unit:
`ACC/32768 - 1 < q <= ACC/32768 + 32767/32768`. -/
def Obligations.AdmissibleSchemeBoundsTheError : Prop :=
  ∀ (r : Rnd) (o : BitVec 15) (acc : ℤ), r.Admissible → r.Reachable o →
    (acc : ℚ) / 32768 - 1 < ((asr15 (acc + r.bias o) : ℤ) : ℚ) ∧
    ((asr15 (acc + r.bias o) : ℤ) : ℚ) ≤ (acc : ℚ) / 32768 + 32767 / 32768

/-- R144, R151: for every history and every table of 32-bit taps, every product is at most 2^46, their sum is below
2^53, and the 64-bit accumulator never wraps: adding the 81 products and the bias in 64-bit two's complement gives the
mathematical value. -/
def Obligations.AccumulatorNeverOverflows : Prop :=
  ∀ (hx : Vector Sample16 (Config.N + 1)) (taps : Vector (BitVec 32) (Config.N + 1)) (b : ℤ),
    0 ≤ b → b ≤ 32767 →
    (∀ i (h : i < Config.N + 1), |(hx[i]).toInt * (taps[i]).toInt| ≤ 2 ^ 46) ∧
    |macX hx taps| < 2 ^ 53 ∧
    ((hx.toList.zip taps.toList).foldl (fun (a : BitVec 64) p => a + p.1.signExtend 64 * p.2.signExtend 64) 0 +
      BitVec.ofInt 64 b).toInt = macX hx taps + b

/-- R153: under every admissible rounding scheme, when every history entry after the shift is zero the output is
zero, there is no event, and the offset still advances; so an all-zero input stream of any length through a
constructed Fixed slot gives an all-zero output stream, of engine steps under every scheme and of commands on this
machine. -/
def Obligations.ZeroInputGivesZeroOutput : Prop :=
  (∀ (n : Nat) (p : Params n) (slot : FixedSlot n) (x : Sample16), p.rnd.Admissible → p.rnd.Reachable slot.offs →
    (∀ i (h : i < n + 1), (shiftIn slot.hx x)[i] = 0) →
    (stepX p slot x).y = 0 ∧ (stepX p slot x).event = false ∧
    (stepX p slot x).slot.offs = p.rnd.next slot.offs ∧ (stepX p slot x).slot.satcnt = slot.satcnt) ∧
  (∀ (n : Nat) (p : Params n), p.rnd.Admissible → ∃ slot : Nat → FixedSlot n, slot 0 = FixedSlot.constructed n ∧
    ∀ k, slot (k + 1) = (stepX p (slot k) 0).slot ∧ (stepX p (slot k) 0).y = 0 ∧ (stepX p (slot k) 0).event = false) ∧
  (∀ (k : Nat) (s : State), ∃ t, execAll (.newengX :: List.replicate k (.procX 0)) s = .next t ∧
    t.responses = s.responses ++ List.replicate (k + 1) ⟨.ok, false, 0⟩ ∧ t.fixed.offs.toNat = k % 2)

/-- R154: on a constructed Fixed slot a sample `a` and then zeros return, at step `k` up to N, the clamped floor of
`(a * FPCOEFF[N-k] + 16384 - (k mod 2)) / 32768`, and 0 after. -/
def Obligations.FixedImpulseResponse : Prop :=
  ∀ (a : Sample16) (zeros : Nat) (s : State),
    ∃ (t : State) (rs : List Response),
      execAll (.newengX :: (Pseudo.impulseX a zeros).expand) s = .next t ∧
      t.responses = s.responses ++ ⟨.ok, false, 0⟩ :: rs ∧ rs.length = zeros + 1 ∧
      ∀ k (h : k < rs.length), rs[k].stat = .ok ∧
        (∀ hk : k ≤ Config.N,
          rs[k].res = resFixed (u16 (sat16
            ((a.toInt * (hw.table.fpcoeff[Config.N - k]).toInt + 16384 - (k % 2 : Nat)) / 32768)))) ∧
        (Config.N < k → rs[k].res = 0)

/-- R155: the sum of the fixed path over 32768 differs from the exact sum over the real taps by at most the sum of
the magnitudes of the samples over 65536, which is at most 40.5. -/
def Obligations.FixedSumTracksTheRealTaps : Prop :=
  ∀ hx : Vector Sample16 (Config.N + 1),
    |(macX hx hw.table.fpcoeff : ℚ) / 32768 - ∑ i : Fin (Config.N + 1), ((hx[i]).toInt : ℚ) * (hw.table.coeff[i]).toRat|
      ≤ (∑ i : Fin (Config.N + 1), |((hx[i]).toInt : ℚ)|) / 65536 ∧
    (∑ i : Fin (Config.N + 1), |((hx[i]).toInt : ℚ)|) / 65536 ≤ 81 / 2

/-- R152: the response and the new slot of PROC.X are functions of the sample and the Fixed slot and of nothing
else, and the Float slot is not written. -/
def Obligations.ProcXDependsOnTheFixedSlotOnly : Prop :=
  ∀ (x : Sample16) (s s' : State), s.fixed = s'.fixed →
    ∃ (t t' : State) (r : Response), exec (.procX x) s = .next t ∧ exec (.procX x) s' = .next t' ∧
      t.fixed = t'.fixed ∧ t.responses = s.responses ++ [r] ∧ t'.responses = s'.responses ++ [r] ∧
      t.float = s.float ∧ t'.float = s'.float

/-- R156: RDSAT completes in every state, returns the counter zero-extended with `SATF` = 0, and changes nothing. -/
def Obligations.RdsatReadsTheCounter : Prop :=
  encode .rdsat = (0x48000000 : BitVec 32) ++ (0 : BitVec 64) ∧
  ∀ s : State,
    exec .rdsat s =
      .next { s with responses := s.responses ++ [⟨.ok, false, BitVec.ofNat 64 s.fixed.satcnt.toNat⟩] }

/-- R25, R140, R150: only NEWENG.X lowers the saturation counter; at 2^32 - 1 it stays. -/
def Obligations.SaturationCounterSticks : Prop :=
  ∀ (i : Instr) (s t : State), exec i s = .next t → i ≠ .newengX →
    s.fixed.satcnt.toNat ≤ t.fixed.satcnt.toNat ∧
    (s.fixed.satcnt.toNat = 2 ^ 32 - 1 → t.fixed.satcnt.toNat = 2 ^ 32 - 1)

/-! ## Buffer memory and the Stream Processor -/

/-- R52: a read is the sum of its bytes, lowest address least significant; a write puts byte `j` of the number at
`a + j` and leaves every other byte; a read after a write gives the number. -/
def Obligations.MemoryIsLittleEndian : Prop :=
  ∀ (m : Memory) (a n v : Nat),
    (∀ f : Nat → Byte, (∀ j, j < n → m.byte (a + j) = some (f j)) →
      m.read a n = some (∑ j ∈ Finset.range n, (f j).toNat * 2 ^ (8 * j))) ∧
    (∀ j, j < n → (m.write a n v).byte (a + j) = some (BitVec.ofNat 8 (v / 2 ^ (8 * j)))) ∧
    (∀ x, x < a ∨ a + n ≤ x → (m.write a n v).byte x = m.byte x) ∧
    (v < 2 ^ (8 * n) → (m.write a n v).read a n = some v)

/-- R66: four consecutive fixed samples read as one float sample are the 64-bit pattern whose bits 15 to 0 are the
first. -/
def Obligations.FourFixedSamplesAreOneFloatPattern : Prop :=
  ∀ (m : Memory) (a : Nat) (v0 v1 v2 v3 : Nat), Holds 2 m a [v0, v1, v2, v3] →
    ∃ v, m.read a 8 = some v ∧ v = v0 + 2 ^ 16 * v1 + 2 ^ 32 * v2 + 2 ^ 48 * v3 ∧
      ((f64of v).extractLsb' 0 16).toNat = v0 ∧ ((f64of v).extractLsb' 48 16).toNat = v3

/-- R171, R190: a length that is not a whole number of samples is answered with InvalidBufferLayout, whatever the
base and the memory, with nothing else changed. -/
def Obligations.PartialSampleRaisesInvalidBufferLayout : Prop :=
  ∀ (base len : Addr) (s : State),
    (len.toNat % 8 ≠ 0 → exec (.fbufF base len) s =
      .next { s with responses := s.responses ++ [⟨.invalidBufferLayout, false, 0⟩] }) ∧
    (len.toNat % 2 ≠ 0 → exec (.fbufX base len) s =
      .next { s with responses := s.responses ++ [⟨.invalidBufferLayout, false, 0⟩] })

/-- R190, R191, R193: no command but an FBUF with a bad length responds InvalidBufferLayout, and no decoded command
responds IllegalCommand. -/
def Obligations.LayoutErrorOnlyFromPartialSamples : Prop :=
  ∀ (i : Instr) (s t : State) (r : Response), exec i s = .next t → t.responses = s.responses ++ [r] → r.stat ≠ .ok →
    r.stat = .invalidBufferLayout ∧
    ∃ base len : Addr, (i = .fbufF base len ∧ len.toNat % 8 ≠ 0) ∨ (i = .fbufX base len ∧ len.toNat % 2 ≠ 0)

/-- R54, R195: with a good length an FBUF is refused exactly when its range is misaligned, wraps, or is not wholly
allocated; with a bad length it is never refused. -/
def Obligations.FbufRefusedExactlyWhenNotAdmitted : Prop :=
  ∀ (base len : Addr) (s : State),
    (len.toNat % 8 = 0 → (IsRefused (exec (.fbufF base len) s) ↔ ¬ Admitted 8 base.toNat len.toNat s.mem)) ∧
    (len.toNat % 2 = 0 → (IsRefused (exec (.fbufX base len) s) ↔ ¬ Admitted 2 base.toNat len.toNat s.mem)) ∧
    (len.toNat % 8 ≠ 0 → IsNext (exec (.fbufF base len) s)) ∧
    (len.toNat % 2 ≠ 0 → IsNext (exec (.fbufX base len) s))

/-- R193, R194, R195: the only packets that have no step are FBUF commands with a good length and a range that is
not admitted. -/
def Obligations.OnlyFbufIsEverRefused : Prop :=
  ∀ (s : State) (r : Refusal), step s = .refused r →
    ∃ (cp : Packet) (rest : List Packet) (base len : Addr), s.commands = cp :: rest ∧
      ((decode cp = some (.fbufF base len) ∧ len.toNat % 8 = 0 ∧ ¬ Admitted 8 base.toNat len.toNat s.mem) ∨
       (decode cp = some (.fbufX base len) ∧ len.toNat % 2 = 0 ∧ ¬ Admitted 2 base.toNat len.toNat s.mem))

/-- R178: an FBUF of length 0 at an aligned base responds `STAT` = 0, `SATF` = 0, `RES` = 0, and changes nothing,
`OFFS` included. -/
def Obligations.EmptyBufferDoesNothing : Prop :=
  ∀ (base : Addr) (s : State),
    (base.toNat % 8 = 0 → exec (.fbufF base 0) s =
      .next { s with responses := s.responses ++ [⟨.ok, false, 0⟩] }) ∧
    (base.toNat % 2 = 0 → exec (.fbufX base 0) s =
      .next { s with responses := s.responses ++ [⟨.ok, false, 0⟩] })

/-- R172, R173, R174, R175, R180: FBUF.X over an admitted range completes; it leaves the Fixed slot as the PROC.X
commands of its elements, given in order, leave it; each element is replaced by its PROC.X result; `SATF` is set
when one of them saturated; every byte outside the range and everything else is unchanged. -/
def Obligations.FbufXIsSuccessiveProcX : Prop :=
  ∀ (base len : Addr) (s : State), len.toNat % 2 = 0 → Admitted 2 base.toNat len.toNat s.mem →
    ∃ (t u : State) (ins : List Nat) (rs : List Response),
      ins.length = len.toNat / 2 ∧ Holds 2 s.mem base.toNat ins ∧
      execAll (ins.map fun v => Instr.procX (BitVec.ofNat 16 v)) s = .next u ∧
      u.responses = s.responses ++ rs ∧ rs.length = ins.length ∧
      exec (.fbufX base len) s = .next t ∧
      t.fixed = u.fixed ∧ Holds 2 t.mem base.toNat (rs.map fun r => r.res.toNat) ∧
      t.responses = s.responses ++ [⟨.ok, rs.any fun r => r.satf, 0⟩] ∧
      (∀ a, a < base.toNat ∨ base.toNat + len.toNat ≤ a → t.mem.byte a = s.mem.byte a) ∧
      t.float = s.float ∧ t.commands = s.commands ∧ t.nanDraws = s.nanDraws

/-- R173: under `ALT`, FBUF.X advances `OFFS` once per element and adds to `SATCNT` one per clamped element, up to
2^32 - 1. -/
def Obligations.FbufXCountsEveryElement : Prop :=
  ∀ (base len : Addr) (s : State), len.toNat % 2 = 0 → Admitted 2 base.toNat len.toNat s.mem →
    s.fixed.offs.toNat ≤ 1 →
    ∃ (t u : State) (ins : List Nat) (rs : List Response),
      Holds 2 s.mem base.toNat ins ∧ ins.length = len.toNat / 2 ∧
      execAll (ins.map fun v => Instr.procX (BitVec.ofNat 16 v)) s = .next u ∧ u.responses = s.responses ++ rs ∧
      exec (.fbufX base len) s = .next t ∧
      t.fixed.offs.toNat = (s.fixed.offs.toNat + len.toNat / 2) % 2 ∧
      t.fixed.satcnt.toNat = min (s.fixed.satcnt.toNat + rs.countP fun r => r.satf) (2 ^ 32 - 1)

/-- R170, R172, R174, R175: FBUF.F over an admitted range completes; it leaves the Float slot as the PROC.F commands
of its elements, given in order, leave it; each element is replaced by its PROC.F result, up to the pattern of a
NaN, whatever NaN draws the separate run starts from; every byte outside the range and everything else is
unchanged. -/
def Obligations.FbufFIsSuccessiveProcF : Prop :=
  ∀ (base len : Addr) (s : State) (draws : Nat), len.toNat % 8 = 0 → Admitted 8 base.toNat len.toNat s.mem →
    ∃ (t u : State) (ins outs : List Nat) (rs : List Response),
      ins.length = len.toNat / 8 ∧ Holds 8 s.mem base.toNat ins ∧
      execAll (ins.map fun v => Instr.procF (BitVec.ofNat 64 v)) { s with nanDraws := draws } = .next u ∧
      u.responses = s.responses ++ rs ∧ rs.length = ins.length ∧
      exec (.fbufF base len) s = .next t ∧
      t.float = u.float ∧ outs.length = ins.length ∧ Holds 8 t.mem base.toNat outs ∧
      (∀ k (h : k < outs.length) (h' : k < rs.length), SameUpToNaN (BitVec.ofNat 64 outs[k]) rs[k].res) ∧
      t.responses = s.responses ++ [⟨.ok, false, 0⟩] ∧
      (∀ a, a < base.toNat ∨ base.toNat + len.toNat ≤ a → t.mem.byte a = s.mem.byte a) ∧
      t.fixed = s.fixed ∧ t.commands = s.commands

/-- R175: filtering a fixed buffer in one command or in two consecutive parts gives the same memory and the same
Fixed slot, `OFFS` and `SATCNT` included; the one `SATF` is the OR of the two. -/
def Obligations.SplitFbufXIsOneFbufX : Prop :=
  ∀ (base len1 len2 : Addr) (s : State), len1.toNat % 2 = 0 → len2.toNat % 2 = 0 →
    len1.toNat + len2.toNat < 2 ^ 32 → Admitted 2 base.toNat (len1.toNat + len2.toNat) s.mem →
    ∃ (t t1 t2 : State) (f f1 f2 : Bool),
      exec (.fbufX base (len1 + len2)) s = .next t ∧
      exec (.fbufX base len1) s = .next t1 ∧ exec (.fbufX (base + len1) len2) t1 = .next t2 ∧
      t2.mem = t.mem ∧ t2.fixed = t.fixed ∧
      t.responses = s.responses ++ [⟨.ok, f, 0⟩] ∧
      t2.responses = s.responses ++ [⟨.ok, f1, 0⟩, ⟨.ok, f2, 0⟩] ∧ f = (f1 || f2)

/-- R175, R128: filtering a float buffer in one command or in two consecutive parts gives the same history, and the
same memory up to the patterns of NaN outputs, whatever NaN draws the second run starts from; with no NaN output
the memories are equal bit for bit. -/
def Obligations.SplitFbufFIsOneFbufF : Prop :=
  ∀ (base len1 len2 : Addr) (s : State) (draws : Nat), len1.toNat % 8 = 0 → len2.toNat % 8 = 0 →
    len1.toNat + len2.toNat < 2 ^ 32 → Admitted 8 base.toNat (len1.toNat + len2.toNat) s.mem →
    ∃ (t t1 t2 : State) (us vs : List Nat),
      exec (.fbufF base (len1 + len2)) s = .next t ∧
      exec (.fbufF base len1) { s with nanDraws := draws } = .next t1 ∧
      exec (.fbufF (base + len1) len2) t1 = .next t2 ∧
      t2.float = t.float ∧ us.length = (len1.toNat + len2.toNat) / 8 ∧ vs.length = us.length ∧
      Holds 8 t.mem base.toNat us ∧ Holds 8 t2.mem base.toNat vs ∧
      (∀ k (h : k < us.length) (h' : k < vs.length),
        SameUpToNaN (BitVec.ofNat 64 us[k]) (BitVec.ofNat 64 vs[k])) ∧
      ((∀ u ∈ us, F64.isNaN (BitVec.ofNat 64 u) = false) → t2.mem = t.mem)

/-! ## The whole machine -/

/-- R30, R50, R24, R147: the invariant (memory in canonical form, `OFFS` 0 or 1) is kept by every step. -/
def Obligations.StepKeepsTheInvariant : Prop :=
  ∀ s t : State, Inv s → step s = .next t → Inv t

/-- The invariant holds after reset, and after a launch from reset with any canonical memory and any packets. -/
def Obligations.ResetMeetsTheInvariant : Prop :=
  Inv State.reset ∧ ∀ (m : Memory) (packets : List Packet), m.wf → Inv (State.reset.launch m packets)

/-- R50, R54, R56: no step allocates or frees an address. -/
def Obligations.StepKeepsTheAllocatedSet : Prop :=
  ∀ s t : State, step s = .next t → ∀ a, (t.mem.byte a).isSome = (s.mem.byte a).isSome

/-- R50, R65: no command but an FBUF writes memory, and no command changes a byte outside the range
`BASE .. BASE+LEN-1` of the FBUF it is. -/
def Obligations.OnlyFbufWritesItsRange : Prop :=
  ∀ (i : Instr) (s t : State), exec i s = .next t →
    ((∀ base len : Addr, i ≠ .fbufF base len ∧ i ≠ .fbufX base len) → t.mem = s.mem) ∧
    (∀ (base len : Addr) (a : Nat), (i = .fbufF base len ∨ i = .fbufX base len) →
      (a < base.toNat ∨ base.toNat + len.toNat ≤ a) → t.mem.byte a = s.mem.byte a)

/-- R22, R23, R24, R25, R31: each slot is written only by its own path's commands, and RDSAT writes neither. -/
def Obligations.SlotsAreWrittenByTheirOwnPathOnly : Prop :=
  ∀ (i : Instr) (s t : State), exec i s = .next t →
    (t.float ≠ s.float → i = .newengF ∨ (∃ x, i = .procF x) ∨ ∃ base len, i = .fbufF base len) ∧
    (t.fixed ≠ s.fixed → i = .newengX ∨ (∃ x, i = .procX x) ∨ ∃ base len, i = .fbufX base len)

/-- R31, R208 (P7 for the two slots): a float command and a fixed command that touch no memory give, in either
order, the same slots and the same two responses, each to its own command. -/
def Obligations.PathsDoNotInterfere : Prop :=
  ∀ (f x : Instr) (s : State), (f = .newengF ∨ ∃ v, f = .procF v) →
    (x = .newengX ∨ x = .rdsat ∨ ∃ v, x = .procX v) →
    ∃ (t u : State) (rf rx : Response), execAll [f, x] s = .next t ∧ execAll [x, f] s = .next u ∧
      t.responses = s.responses ++ [rf, rx] ∧ u.responses = s.responses ++ [rx, rf] ∧
      t.float = u.float ∧ t.fixed = u.fixed ∧ t.mem = u.mem

/-- R70, R237: a launch whose packets are the encodings of commands takes them in list order, each after the
response of the one before: the machine's run is the commands executed one after another. -/
def Obligations.LaunchRunsThePacketsInOrder : Prop :=
  ∀ (is : List Instr) (s : State),
    runSteps is.length { s with commands := is.map encode } = execAll is { s with commands := [] }

/-! ## The textual form -/

/-- R80: an integer out of range, or an address or length of more than 32 bits, is an assembler error; in range,
the line is its command. -/
def Obligations.AssemblerChecksRanges : Prop :=
  (∀ v : ℤ, (AsmLine.procX v).assemble =
    if v < -32768 ∨ 32767 < v then none else some (.procX (BitVec.ofInt 16 v))) ∧
  (∀ base len : Nat, (AsmLine.fbufF base len).assemble =
    if 2 ^ 32 ≤ base ∨ 2 ^ 32 ≤ len then none else some (.fbufF (BitVec.ofNat 32 base) (BitVec.ofNat 32 len))) ∧
  (∀ base len : Nat, (AsmLine.fbufX base len).assemble =
    if 2 ^ 32 ≤ base ∨ 2 ^ 32 ≤ len then none else some (.fbufX (BitVec.ofNat 32 base) (BitVec.ofNat 32 len)))

/-- R80: a decimal real literal stands for the binary64 value nearest to it, ties to even.  That a literal past the
largest finite number stands for an infinity is the model's choice (assumption log 15). -/
def Obligations.DecimalLiteralIsNearest : Prop :=
  ∀ (negative : Bool) (digits : Nat) (exp10 : ℤ), ∃ z : F64,
    (RealLit.decimal negative digits exp10).value = some z ∧
    Rounds ((if negative then -1 else 1) * (digits : ℚ) * (10 : ℚ) ^ exp10) z

/-! ## A reset during a command, and a run -/

/-- R222, U11: a hardware reset during FBUF.F over an admitted range gives no response, leaves both slots in the
reset state, and leaves the first `k` elements replaced by the outputs of that many PROC.F, up to the pattern of a NaN,
whatever NaN draws the separate run starts from, and the rest original; every `k` up to the element count is possible. -/
def Obligations.ResetDuringFbufFLeavesLeadingElements : Prop :=
  ∀ (s : State) (base len : Addr) (k draws : Nat), len.toNat % 8 = 0 → Admitted 8 base.toNat len.toNat s.mem →
    k ≤ len.toNat / 8 →
    ∃ (ins outs : List Nat) (u : State) (rs : List Response),
      ins.length = len.toNat / 8 ∧ Holds 8 s.mem base.toNat ins ∧
      execAll ((ins.take k).map fun v => Instr.procF (BitVec.ofNat 64 v)) { s with nanDraws := draws } = .next u ∧
      u.responses = s.responses ++ rs ∧ rs.length = k ∧ outs.length = k ∧
      (∀ j (h : j < outs.length) (h' : j < rs.length), SameUpToNaN (BitVec.ofNat 64 outs[j]) rs[j].res) ∧
      Holds 8 (resetDuring (.fbufF base len) k s).mem base.toNat (outs ++ ins.drop k) ∧
      (∀ a, a < base.toNat ∨ base.toNat + len.toNat ≤ a →
        (resetDuring (.fbufF base len) k s).mem.byte a = s.mem.byte a) ∧
      (resetDuring (.fbufF base len) k s).responses = s.responses ∧
      (resetDuring (.fbufF base len) k s).float = State.reset.float ∧
      (resetDuring (.fbufF base len) k s).fixed = State.reset.fixed

/-- R222, R65, R171: a hardware reset during a command that writes no memory (every command but an FBUF, and an FBUF whose
length is not a whole number of samples) gives no response, leaves both slots in the reset state, and leaves buffer
memory unchanged. -/
def Obligations.ResetDuringOtherCommandsKeepsMemory : Prop :=
  ∀ (i : Instr) (k : Nat) (s : State),
    (∀ base len : Addr, (i = .fbufF base len → len.toNat % 8 ≠ 0) ∧ (i = .fbufX base len → len.toNat % 2 ≠ 0)) →
    (resetDuring i k s).mem = s.mem ∧ (resetDuring i k s).responses = s.responses ∧
    (resetDuring i k s).float = State.reset.float ∧ (resetDuring i k s).fixed = State.reset.fixed

/-- R237, R70: the empty run ends at once; a run whose packets hold no FBUF ends; a run that ends has used up its packets
and shows one response for each, its own and none of the commands before it; a run in two parts, the second from the state
and the memory the first ends in, shows what the whole run shows; and a refused packet, wherever it stands, leaves the
run without an end. -/
def Obligations.RunShowsItsOwnResponses : Prop :=
  ∀ (s : State) (m : Memory) (ps qs : List Packet),
    (∃ t, s.run m [] = .next t ∧ t.observe = ⟨[], m, s.float, s.fixed⟩) ∧
    ((∀ cp ∈ ps, ∀ base len : Addr, decode cp ≠ some (.fbufF base len) ∧ decode cp ≠ some (.fbufX base len)) →
      IsNext (s.run m ps)) ∧
    ∀ t : State, s.run m ps = .next t →
      t.commands = [] ∧ t.observe.responses.length = ps.length ∧
      (∀ u : State, t.run t.mem qs = .next u → ∃ v : State, s.run m (ps ++ qs) = .next v ∧
        v.observe = ⟨t.observe.responses ++ u.observe.responses, u.mem, u.float, u.fixed⟩) ∧
      (∀ r : Refusal, t.run t.mem qs = .refused r → s.run m (ps ++ qs) = .refused r)
end

