-- ==== Sys2Proof/Laws/Binary64.lean ====
section
/-! SUPPORT. Binary64 patterns and rounding (spec/41_float_engine.md R124): the fields of a packed pattern, the order
of magnitudes, and that `roundMag` is rounding to nearest, ties to even. -/

namespace Sys2Proof

theorem F64.infMag_eq : F64.infMag = 9218868437227405312 := by decide

@[simp] theorem F64.pack_magBits (s : Bool) {m : Nat} (h : m < 2 ^ 63) : (F64.pack s m).magBits = m := by
  unfold F64.magBits F64.pack
  rw [BitVec.toNat_ofNat]
  cases s <;> simp <;> omega

@[simp] theorem F64.pack_sign (s : Bool) {m : Nat} (h : m < 2 ^ 63) : (F64.pack s m).sign = s := by
  unfold F64.sign F64.pack
  rw [BitVec.msb_eq_decide, BitVec.toNat_ofNat]
  cases s
  · simp; omega
  · simp; omega

/-- A pattern is its sign and its magnitude bits. -/
theorem F64.pack_self (x : F64) : F64.pack x.sign x.magBits = x := by
  apply BitVec.eq_of_toNat_eq
  have hx := x.isLt
  unfold F64.pack F64.sign F64.magBits
  rw [BitVec.toNat_ofNat, BitVec.msb_eq_decide]
  simp only [Nat.add_one_sub_one, decide_eq_true_eq]
  split_ifs <;> omega

/-- Two patterns with the same sign and magnitude bits are equal. -/
theorem F64.ext_fields {x y : F64} (hs : x.sign = y.sign) (hm : x.magBits = y.magBits) : x = y := by
  rw [← F64.pack_self x, ← F64.pack_self y, hs, hm]

theorem F64.magBits_lt (x : F64) : x.magBits < 2 ^ 63 := Nat.mod_lt _ (by norm_num)

theorem F64.fraction_mod_two (x : F64) : x.fraction % 2 = x.magBits % 2 := by
  unfold F64.fraction; omega

/-- The magnitude with `e` dropped places and significand `r`. -/
theorem F64.magOf_scaled {e r : Nat} (h : (e = 0 ∨ 2 ^ 52 ≤ r) ∧ r ≤ 2 ^ 53) :
    F64.magOf (e * 2 ^ 52 + r) = r * 2 ^ e := by
  obtain ⟨h1, h2⟩ := h
  unfold F64.magOf
  by_cases ha : r < 2 ^ 52
  · have he : e = 0 := by omega
    subst he
    rw [if_pos (by omega)]; simp
  · by_cases hb : r < 2 ^ 53
    · have hq : (e * 2 ^ 52 + r) / 2 ^ 52 = e + 1 := by omega
      have hr : (e * 2 ^ 52 + r) % 2 ^ 52 = r - 2 ^ 52 := by omega
      rw [hq, hr, if_neg (by omega), show 2 ^ 52 + (r - 2 ^ 52) = r by omega, Nat.add_sub_cancel]
    · have he : r = 2 ^ 53 := by omega
      subst he
      have hq : (e * 2 ^ 52 + 2 ^ 53) / 2 ^ 52 = e + 2 := by omega
      have hr : (e * 2 ^ 52 + 2 ^ 53) % 2 ^ 52 = 0 := by omega
      rw [hq, hr, if_neg (by omega), show e + 2 - 1 = e + 1 by omega, pow_succ 2 e, pow_succ 2 52]
      ring

/-- Every magnitude bits are `e` dropped places and a significand. -/
theorem F64.exists_scaled (m : Nat) :
    ∃ e r : Nat, m = e * 2 ^ 52 + r ∧ (e = 0 ∨ 2 ^ 52 ≤ r) ∧ r < 2 ^ 53 := by
  by_cases h : m < 2 ^ 53
  · exact ⟨0, m, by omega, .inl rfl, h⟩
  · exact ⟨m / 2 ^ 52 - 1, m % 2 ^ 52 + 2 ^ 52, by omega, by omega, by omega⟩

/-- Magnitudes are ordered as their bits. -/
theorem F64.magOf_strictMono : StrictMono F64.magOf := by
  refine strictMono_nat_of_lt_succ fun m => ?_
  obtain ⟨e, r, rfl, h1, h2⟩ := F64.exists_scaled m
  rw [F64.magOf_scaled ⟨h1, by omega⟩, Nat.add_assoc, F64.magOf_scaled ⟨by omega, by omega⟩]
  exact Nat.mul_lt_mul_of_pos_right (Nat.lt_succ_self r) (by positivity)

@[simp] theorem F64.magOf_zero : F64.magOf 0 = 0 := by decide

/-- Rounding to the nearest integer: no integer is nearer, and where another is as near the result is even. -/
theorem F64.nearestEven_spec {num den : Nat} (hd : 0 < den) (k : Nat) :
    |((F64.nearestEven num den : ℕ) : ℤ) * den - num| ≤ |(k : ℤ) * den - num| ∧
    (|((F64.nearestEven num den : ℕ) : ℤ) * den - num| = |(k : ℤ) * den - num| →
      k = F64.nearestEven num den ∨ F64.nearestEven num den % 2 = 0) := by
  obtain ⟨q, hq⟩ : ∃ q, q = num / den := ⟨_, rfl⟩
  obtain ⟨t, ht⟩ : ∃ t, t = num % den := ⟨_, rfl⟩
  have hn : num = den * q + t := by rw [hq, ht]; exact (Nat.div_add_mod num den).symm
  have htl : t < den := by rw [ht]; exact Nat.mod_lt _ hd
  have e0 : |((q : ℕ) : ℤ) * den - num| = t := by
    rw [hn]; push_cast; rw [show (q : ℤ) * den - (den * q + t) = -t by ring, abs_neg]; exact abs_of_nonneg (by omega)
  have e1 : |((q + 1 : ℕ) : ℤ) * den - num| = den - t := by
    rw [hn]; push_cast; rw [show ((q : ℤ) + 1) * den - (den * q + t) = den - t by ring]; exact abs_of_pos (by omega)
  have ek : (k = q ∨ k = q + 1) ∨ (den : ℤ) + t ≤ |(k : ℤ) * den - num| ∨ 2 * (den : ℤ) - t ≤ |(k : ℤ) * den - num| := by
    rcases Nat.lt_or_ge k q with h | h
    · refine .inr (.inl ?_)
      have h' : ((k : ℤ) + 1) * den ≤ q * den := by gcongr; omega
      rw [abs_of_neg] <;> rw [hn] <;> push_cast <;> linarith
    · rcases Nat.lt_or_ge k (q + 2) with h2 | h2
      · exact .inl (by omega)
      · refine .inr (.inr ?_)
        have h' : ((q : ℤ) + 2) * den ≤ k * den := by gcongr; omega
        rw [abs_of_pos] <;> rw [hn] <;> push_cast <;> linarith
  unfold F64.nearestEven
  rw [← hq, ← ht]
  have hp := Nat.mod_two_eq_zero_or_one q
  split_ifs with c1 c2
  · rw [e0]
    rcases ek with (rfl | rfl) | c | c <;> omega
  · rcases hp with hp | hp
    · rw [hp, Nat.add_zero, e0]
      rcases ek with (rfl | rfl) | c | c <;> omega
    · rw [hp, e1]
      rcases ek with (rfl | rfl) | c | c <;> omega
  · rw [e1]
    rcases ek with (rfl | rfl) | c | c <;> omega

/-- The nearest integer lies in every integer interval that holds the quotient. -/
theorem F64.nearestEven_mem {num den a b : Nat} (hd : 0 < den) (ha : a * den ≤ num) (hb : num ≤ b * den) :
    a ≤ F64.nearestEven num den ∧ F64.nearestEven num den ≤ b := by
  have h1 : a ≤ num / den := (Nat.le_div_iff_mul_le hd).2 ha
  have h2 : num / den ≤ b := by
    rcases Nat.lt_or_ge b (num / den) with h | h
    · have := (Nat.le_div_iff_mul_le hd).1 h; nlinarith
    · exact h
  have h3 : num / den = b → num % den = 0 := fun h => by
    have := Nat.div_add_mod num den; rw [h, Nat.mul_comm] at this; omega
  unfold F64.nearestEven
  split_ifs <;> omega

/-- How many binary places `roundMag` drops. -/
def F64.dropped (num den : Nat) : Nat := (num / den).log2 - 52

/-- The significand is below 2^53, and full when a place is dropped. -/
theorem F64.dropped_spec {num den : Nat} (hd : 0 < den) :
    num < 2 ^ 53 * (den * 2 ^ F64.dropped num den) ∧
    (F64.dropped num den = 0 ∨ 2 ^ 52 * (den * 2 ^ F64.dropped num den) ≤ num) := by
  obtain ⟨f, hf⟩ : ∃ f, f = num / den := ⟨_, rfl⟩
  have hlt : num < (f + 1) * den := by rw [hf]; exact Nat.lt_mul_of_div_lt (Nat.lt_succ_self _) hd
  have hle : f * den ≤ num := by rw [hf]; exact Nat.div_mul_le_self ..
  unfold F64.dropped
  rw [← hf]
  have h1 : f < 2 ^ (f.log2 + 1) := Nat.lt_log2_self
  constructor
  · have h2 : f + 1 ≤ 2 ^ 53 * 2 ^ (f.log2 - 52) := by
      rw [← pow_add]
      exact h1.trans_le (Nat.pow_le_pow_right (by norm_num) (by omega))
    calc num < (f + 1) * den := hlt
      _ ≤ (2 ^ 53 * 2 ^ (f.log2 - 52)) * den := by gcongr
      _ = _ := by ring
  · by_cases he : f.log2 ≤ 52
    · exact .inl (by omega)
    · refine .inr ?_
      have h0 : f ≠ 0 := fun h => by subst h; simp at he
      have h2 : 2 ^ 52 * 2 ^ (f.log2 - 52) ≤ f := by
        rw [← pow_add, show 52 + (f.log2 - 52) = f.log2 by omega]
        exact Nat.log2_self_le h0
      calc 2 ^ 52 * (den * 2 ^ (f.log2 - 52)) = (2 ^ 52 * 2 ^ (f.log2 - 52)) * den := by ring
        _ ≤ f * den := by gcongr
        _ ≤ num := hle

/-- The rounded significand. -/
def F64.significand (num den : Nat) : Nat := F64.nearestEven num (den * 2 ^ F64.dropped num den)

theorem F64.roundMag_eq (num den : Nat) :
    F64.roundMag num den = min (F64.dropped num den * 2 ^ 52 + F64.significand num den) F64.infMag := rfl

theorem F64.significand_bounds {num den : Nat} (hd : 0 < den) :
    (F64.dropped num den = 0 ∨ 2 ^ 52 ≤ F64.significand num den) ∧ F64.significand num den ≤ 2 ^ 53 := by
  obtain ⟨h1, h2⟩ := F64.dropped_spec (num := num) hd
  have hD : 0 < den * 2 ^ F64.dropped num den := by positivity
  constructor
  · exact h2.imp id fun h => (F64.nearestEven_mem (b := 2 ^ 53) hD h h1.le).1
  · exact (F64.nearestEven_mem (a := 0) hD (by omega) h1.le).2

/-- The unbounded rounding is nearest, ties to even: no magnitude is nearer to `num / den`, and where another is as
near the result's last bit is 0. -/
theorem F64.rounded_nearest {num den : Nat} (hd : 0 < den) (m : Nat) :
    |(F64.magOf (F64.dropped num den * 2 ^ 52 + F64.significand num den) : ℤ) * den - num| ≤
      |(F64.magOf m : ℤ) * den - num| ∧
    (|(F64.magOf (F64.dropped num den * 2 ^ 52 + F64.significand num den) : ℤ) * den - num| =
      |(F64.magOf m : ℤ) * den - num| →
      F64.magOf m = F64.magOf (F64.dropped num den * 2 ^ 52 + F64.significand num den) ∨
      (F64.dropped num den * 2 ^ 52 + F64.significand num den) % 2 = 0) := by
  have hb := F64.significand_bounds (num := num) hd
  obtain ⟨-, h2⟩ := F64.dropped_spec (num := num) hd
  rw [F64.magOf_scaled hb]
  have spec := fun k => F64.nearestEven_spec (num := num) (den := den * 2 ^ F64.dropped num den) (by positivity) k
  unfold F64.significand at *
  generalize F64.dropped num den = e at *
  obtain ⟨r, hr⟩ : ∃ r, r = F64.nearestEven num (den * 2 ^ e) := ⟨_, rfl⟩
  rw [← hr] at spec hb ⊢
  obtain ⟨e', r', rfl, hb1, hb2⟩ := F64.exists_scaled m
  rw [F64.magOf_scaled ⟨hb1, by omega⟩]
  have hl : ((r * 2 ^ e : ℕ) : ℤ) * den = (r : ℤ) * ((den * 2 ^ e : ℕ) : ℤ) := by push_cast; ring
  have hpar : (e * 2 ^ 52 + r) % 2 = r % 2 := by omega
  rw [hl, hpar]
  rcases Nat.lt_or_ge e' e with he | he
  · have hfull : 2 ^ 52 * (den * 2 ^ e) ≤ num := h2.resolve_left (by omega)
    have hpow : 2 ^ 53 * 2 ^ e' ≤ 2 ^ 52 * 2 ^ e := by
      rw [← pow_add, ← pow_add]; exact Nat.pow_le_pow_right (by norm_num) (by omega)
    have hlt : r' * 2 ^ e' * den < 2 ^ 52 * (den * 2 ^ e) := by
      calc r' * 2 ^ e' * den < 2 ^ 53 * 2 ^ e' * den := by gcongr
        _ ≤ 2 ^ 52 * 2 ^ e * den := by gcongr
        _ = _ := by ring
    have h52 := (spec (2 ^ 52)).1
    have ea : |((2 ^ 52 : ℕ) : ℤ) * ((den * 2 ^ e : ℕ) : ℤ) - num| = num - ((2 ^ 52 * (den * 2 ^ e) : ℕ) : ℤ) := by
      rw [abs_of_nonpos] <;> push_cast <;> [ring; skip]
      have : ((2 ^ 52 * (den * 2 ^ e) : ℕ) : ℤ) ≤ num := by exact_mod_cast hfull
      push_cast at this; linarith
    have eb : |((r' * 2 ^ e' : ℕ) : ℤ) * den - num| = num - ((r' * 2 ^ e' * den : ℕ) : ℤ) := by
      have : ((r' * 2 ^ e' * den : ℕ) : ℤ) ≤ num := by exact_mod_cast hlt.le.trans hfull
      push_cast at this
      rw [abs_of_nonpos] <;> push_cast <;> [ring; linarith]
    have hlt' : ((r' * 2 ^ e' * den : ℕ) : ℤ) < ((2 ^ 52 * (den * 2 ^ e) : ℕ) : ℤ) := by exact_mod_cast hlt
    rw [ea] at h52
    rw [eb]
    exact ⟨by linarith, fun h => by linarith⟩
  · have hk : ((r' * 2 ^ e' : ℕ) : ℤ) * den = ((r' * 2 ^ (e' - e) : ℕ) : ℤ) * ((den * 2 ^ e : ℕ) : ℤ) := by
      rw [show e' = (e' - e) + e by omega, pow_add, Nat.add_sub_cancel]; push_cast; ring
    obtain ⟨s1, s2⟩ := spec (r' * 2 ^ (e' - e))
    rw [hk]
    refine ⟨s1, fun h => (s2 h).imp (fun hh => ?_) id⟩
    rw [← hh, Nat.mul_assoc, ← pow_add, Nat.sub_add_cancel he]

/-- The midpoint of the largest finite magnitude and the next power of two, in units of 2^-1074. -/
def F64.overflowAt : Nat := (2 ^ 54 - 1) * 2 ^ 2044

/-- Rounding stays below infinity exactly below the midpoint. -/
theorem F64.rounded_lt_infMag {num den : Nat} (hd : 0 < den) :
    F64.dropped num den * 2 ^ 52 + F64.significand num den < F64.infMag ↔ num < F64.overflowAt * den := by
  obtain ⟨h1, h2⟩ := F64.dropped_spec (num := num) hd
  have hb := F64.significand_bounds (num := num) hd
  have hmem := fun a b => F64.nearestEven_mem (num := num) (den := den * 2 ^ F64.dropped num den) (a := a) (b := b)
    (by positivity)
  have hform : F64.significand num den = F64.nearestEven num (den * 2 ^ F64.dropped num den) := rfl
  have hinf := F64.infMag_eq
  unfold F64.overflowAt
  constructor
  · intro h
    by_contra hc
    rw [not_lt] at hc
    have he : 2045 ≤ F64.dropped num den := by
      by_contra hlt
      have hp : (2 : ℕ) ^ F64.dropped num den ≤ 2 ^ 2044 := Nat.pow_le_pow_right (by norm_num) (by omega)
      have : num < 2 ^ 53 * (den * 2 ^ 2044) := h1.trans_le (by gcongr)
      have : (2 ^ 54 - 1) * 2 ^ 2044 * den = (2 ^ 54 - 1) * (den * 2 ^ 2044) := by ring
      generalize den * 2 ^ 2044 = D at *
      omega
    rcases Nat.eq_or_lt_of_le he with he | he
    · rw [← he] at h1 h2 hb hmem hform h
      have hD : (2 ^ 54 - 1) * 2 ^ 2044 * den * 2 = (2 ^ 54 - 1) * (den * 2 ^ 2045) := by
        rw [show (2 : ℕ) ^ 2045 = 2 ^ 2044 * 2 from pow_succ 2 2044]; ring
      have hD0 : 0 < den * 2 ^ 2045 := by positivity
      have hr : F64.significand num den = 2 ^ 53 := by
        rw [hform]
        generalize den * 2 ^ 2045 = D at *
        obtain ⟨q, hq⟩ : ∃ q, q = num / D := ⟨_, rfl⟩
        obtain ⟨t, ht⟩ : ∃ t, t = num % D := ⟨_, rfl⟩
        have hn : D * q + t = num := by rw [hq, ht]; exact Nat.div_add_mod num D
        have htl : t < D := by rw [ht]; exact Nat.mod_lt _ hD0
        have hq1 : q = 2 ^ 53 - 1 := by
          have ha : q < 2 ^ 53 := by rw [hq]; exact Nat.div_lt_of_lt_mul (by rw [Nat.mul_comm]; exact h1)
          have hb : 2 ^ 53 - 1 ≤ q := by rw [hq]; exact (Nat.le_div_iff_mul_le hD0).2 (by omega)
          omega
        unfold F64.nearestEven
        rw [← hq, ← ht]
        rw [hq1] at hn ⊢
        split_ifs <;> omega
      omega
    · omega
  · intro h
    have hp : F64.dropped num den ≤ 2045 := by
      by_contra hlt
      have hfull := h2.resolve_left (by omega)
      have hpow : (2 : ℕ) ^ 2046 ≤ 2 ^ F64.dropped num den := Nat.pow_le_pow_right (by norm_num) (by omega)
      have h3 : 2 ^ 52 * (den * 2 ^ 2046) ≤ num := le_trans (by gcongr) hfull
      have : 2 ^ 52 * (den * 2 ^ 2046) = 2 ^ 54 * (den * 2 ^ 2044) := by
        rw [show (2046 : ℕ) = 2044 + 2 from rfl, pow_add]; ring
      have : (2 ^ 54 - 1) * 2 ^ 2044 * den = (2 ^ 54 - 1) * (den * 2 ^ 2044) := by ring
      generalize den * 2 ^ 2044 = D at *
      omega
    rcases Nat.eq_or_lt_of_le hp with he | he
    · rw [he] at h1 h2 hb hmem hform ⊢
      have hD : (2 ^ 54 - 1) * 2 ^ 2044 * den * 2 = (2 ^ 54 - 1) * (den * 2 ^ 2045) := by
        rw [show (2 : ℕ) ^ 2045 = 2 ^ 2044 * 2 from pow_succ 2 2044]; ring
      have hD0 : 0 < den * 2 ^ 2045 := by positivity
      have hr : F64.significand num den ≤ 2 ^ 53 - 1 := by
        rw [hform]
        generalize den * 2 ^ 2045 = D at *
        obtain ⟨q, hq⟩ : ∃ q, q = num / D := ⟨_, rfl⟩
        obtain ⟨t, ht⟩ : ∃ t, t = num % D := ⟨_, rfl⟩
        have hn : D * q + t = num := by rw [hq, ht]; exact Nat.div_add_mod num D
        have htl : t < D := by rw [ht]; exact Nat.mod_lt _ hD0
        have ha : q < 2 ^ 53 := by rw [hq]; exact Nat.div_lt_of_lt_mul (by rw [Nat.mul_comm]; exact h1)
        unfold F64.nearestEven
        rw [← hq, ← ht]
        rcases Nat.lt_or_ge q (2 ^ 53 - 1) with hlt | hge
        · split_ifs <;> omega
        · have hq1 : q = 2 ^ 53 - 1 := by omega
          rw [hq1] at hn ⊢
          rw [if_pos (by omega)]
      omega
    · omega

/-- A magnitude that is one is rounded to itself. -/
theorem F64.roundMag_magOf {m : Nat} (h : m ≤ F64.infMag) : F64.roundMag (F64.magOf m) 1 = m := by
  have hn := (F64.rounded_nearest (num := F64.magOf m) (den := 1) Nat.one_pos m).1
  rw [Nat.cast_one, mul_one, mul_one, sub_self, abs_zero, abs_nonpos_iff, sub_eq_zero, Nat.cast_inj] at hn
  rw [F64.roundMag_eq, F64.magOf_strictMono.injective hn, min_eq_left h]

/-- The sign as a factor. -/
def F64.signum (s : Bool) : ℚ := if s then -1 else 1

theorem F64.abs_signum (s : Bool) : |F64.signum s| = 1 := by cases s <;> simp [F64.signum]

theorem F64.signum_xor (a b : Bool) : F64.signum (a != b) = F64.signum a * F64.signum b := by
  cases a <;> cases b <;> simp [F64.signum]

theorem F64.unitsPerOne_pos : (0 : ℚ) < (F64.unitsPerOne : ℚ) := by
  have : 0 < F64.unitsPerOne := by unfold F64.unitsPerOne; positivity
  exact_mod_cast this

theorem F64.val_eq (x : F64) : (x.val : ℚ) = F64.signum x.sign * (x.mag : ℚ) := by
  unfold F64.val F64.signum; cases x.sign <;> simp

theorem F64.toRat_eq (x : F64) :
    x.toRat = F64.signum x.sign * ((F64.magOf x.magBits : ℕ) : ℚ) / (F64.unitsPerOne : ℚ) := by
  unfold F64.toRat; rw [F64.val_eq]; rfl

theorem F64.overflowAt_eq : (F64.overflowAt : ℚ) = (2 ^ 54 - 1) * 2 ^ 970 * (F64.unitsPerOne : ℚ) := by
  unfold F64.overflowAt F64.unitsPerOne
  rw [show (2044 : ℕ) = 970 + 1074 from rfl, pow_add]
  push_cast
  ring

open Machine in
/-- The pattern with sign `s` and the rounded magnitude of `num / den` is the signed quotient, rounded. -/
theorem F64.rounds_pack (s : Bool) (num den : Nat) (hd : 0 < den) :
    Rounds (F64.signum s * ((num : ℚ) / den) / (F64.unitsPerOne : ℚ)) (F64.pack s (F64.roundMag num den)) := by
  have hU := F64.unitsPerOne_pos
  have hdq : (0:ℚ) < den := by exact_mod_cast hd
  have habs : |F64.signum s * ((num : ℚ) / den) / (F64.unitsPerOne : ℚ)| = (num : ℚ) / den / (F64.unitsPerOne : ℚ) := by
    have hq : (0:ℚ) ≤ (num:ℚ)/den := div_nonneg (Nat.cast_nonneg _) hdq.le
    generalize (F64.unitsPerOne : ℚ) = U at *
    rw [abs_div, abs_mul, F64.abs_signum, one_mul, abs_of_pos hU, abs_of_nonneg hq]
  have hcond : |F64.signum s * ((num : ℚ) / den) / (F64.unitsPerOne : ℚ)| < (2 ^ 54 - 1) * 2 ^ 970 ↔ num < F64.overflowAt * den := by
    rw [habs, div_lt_iff₀ hU, ← F64.overflowAt_eq, div_lt_iff₀ hdq]; exact_mod_cast Iff.rfl
  have hiff := F64.rounded_lt_infMag (num := num) hd
  have hnear := F64.rounded_nearest (num := num) hd
  clear habs
  unfold Rounds
  simp only [F64.toRat_eq]
  generalize (F64.unitsPerOne : ℚ) = U at *
  have hinf := F64.infMag_eq
  by_cases h : num < F64.overflowAt * den
  · rw [if_pos (hcond.2 h)]
    have hR := hiff.2 h
    rw [F64.roundMag_eq, min_eq_left hR.le]
    generalize F64.dropped num den * 2 ^ 52 + F64.significand num den = R at *
    have hR63 : R < 2 ^ 63 := by omega
    have hzs := F64.pack_sign s hR63
    have hzm := F64.pack_magBits s hR63
    refine ⟨by simp [F64.isFinite, hzm, hR], fun w hw => ?_⟩
    rw [hzs, hzm]
    have hfr : (F64.pack s R).fraction % 2 = R % 2 := by rw [F64.fraction_mod_two, hzm]
    rw [hfr]
    have key : ∀ (σ : ℚ) (a : ℕ), |σ| = 1 → |σ * (a:ℚ) / U - σ * ((num : ℚ) / den) / U| = ((|((a:ℤ)) * den - num| : ℤ) : ℚ) / (den * U) := by
      intro σ a hσ
      have : σ * (a:ℚ) / U - σ * ((num : ℚ) / den) / U = σ * (((a:ℚ) * den - num) / (den * U)) := by
        field_simp
      rw [this, abs_mul, hσ, one_mul, abs_div, abs_of_pos (mul_pos hdq hU)]
      push_cast; rfl
    rw [key _ (F64.magOf R) (F64.abs_signum s)]
    have hDU : (0:ℚ) < den * U := mul_pos hdq hU
    by_cases hs : w.sign = s
    · rw [hs, key _ _ (F64.abs_signum s), div_le_div_iff_of_pos_right hDU, Int.cast_le, div_left_inj' hDU.ne', Int.cast_inj]
      obtain ⟨h1, h2⟩ := hnear w.magBits
      refine ⟨h1, fun e => (h2 e).imp (fun e => by rw [e]) id⟩
    · have hs' : F64.signum w.sign = - F64.signum s := by cases hw : w.sign <;> cases s <;> simp_all [F64.signum]
      have e2 : |F64.signum w.sign * ((F64.magOf w.magBits : ℕ):ℚ) / U - F64.signum s * ((num : ℚ) / den) / U| = (((F64.magOf w.magBits : ℤ) * den + num : ℤ) : ℚ) / (den * U) := by
        have : F64.signum w.sign * ((F64.magOf w.magBits : ℕ):ℚ) / U - F64.signum s * ((num : ℚ) / den) / U = - (F64.signum s * (((F64.magOf w.magBits:ℚ) * den + num) / (den * U))) := by
          rw [hs']; field_simp; ring
        rw [this, abs_neg, abs_mul, F64.abs_signum, one_mul, abs_of_nonneg (by positivity)]
        push_cast; rfl
      rw [e2, div_le_div_iff_of_pos_right hDU, Int.cast_le, div_left_inj' hDU.ne', Int.cast_inj]
      obtain ⟨h1, h2⟩ := hnear 0
      rw [F64.magOf_zero] at h1 h2
      have hn : |((0:ℕ):ℤ) * den - num| = num := by simp
      rw [hn] at h1 h2
      have hp : (0:ℤ) ≤ (F64.magOf w.magBits : ℤ) * den := by positivity
      refine ⟨by linarith, fun e => ?_⟩
      have hz : (F64.magOf w.magBits : ℤ) * den = 0 := by linarith
      have hw0 : F64.magOf w.magBits = 0 := by
        have : F64.magOf w.magBits * den = 0 := by exact_mod_cast hz
        rcases Nat.mul_eq_zero.1 this with h | h
        · exact h
        · omega
      refine (h2 (by linarith)).imp (fun e => ?_) id
      rw [hw0, ← e]; simp
  · rw [if_neg (fun c => h (hcond.1 c))]
    have hR : F64.roundMag num den = F64.infMag := by
      rw [F64.roundMag_eq]; exact min_eq_right (by have := mt hiff.1 h; omega)
    rw [hR]
    refine ⟨by simp [F64.isInf, F64.pack_magBits s (show F64.infMag < 2^63 by rw [hinf]; norm_num)], ?_⟩
    rw [F64.pack_sign s (show F64.infMag < 2^63 by rw [hinf]; norm_num)]
    have hov : 0 < F64.overflowAt := by unfold F64.overflowAt; exact Nat.mul_pos (by norm_num) (Nat.pow_pos (by norm_num))
    have hn : 0 < num := lt_of_lt_of_le (Nat.mul_pos hov hd) (not_lt.1 h)
    have hpos : 0 < (num:ℚ)/den := div_pos (by exact_mod_cast hn) hdq
    cases s
    · simp only [F64.signum, Bool.false_eq_true, if_false, one_mul, false_iff, not_lt]; exact (div_pos hpos hU).le
    · simp only [F64.signum, if_true, true_iff]
      rw [neg_one_mul, neg_div]; exact neg_lt_zero.2 (div_pos hpos hU)

/-! ## The four kinds of pattern -/

theorem F64.infMag_lt : F64.infMag < 2 ^ 63 := by decide

theorem F64.roundMag_lt (num den : Nat) : F64.roundMag num den < 2 ^ 63 :=
  lt_of_le_of_lt (min_le_right _ _) F64.infMag_lt

theorem F64.roundMag_zero {den : Nat} (h : 0 < den) : F64.roundMag 0 den = 0 := by
  simp [F64.roundMag, F64.nearestEven, h]

theorem F64.isFinite_iff {x : F64} : x.isFinite = true ↔ x.magBits < F64.infMag := by simp [F64.isFinite]

theorem F64.isZero_iff {x : F64} : x.isZero = true ↔ x.magBits = 0 := by simp [F64.isZero]

theorem F64.isZero_pack (s : Bool) : (F64.pack s 0).isZero = true := by cases s <;> decide

theorem F64.isNaN_of_isFinite {x : F64} (h : x.isFinite = true) : x.isNaN = false := by
  rw [F64.isFinite_iff] at h; simp [F64.isNaN]; omega

theorem F64.isInf_of_isFinite {x : F64} (h : x.isFinite = true) : x.isInf = false := by
  rw [F64.isFinite_iff] at h; simp [F64.isInf]; omega

theorem F64.isFinite_of_isZero {x : F64} (h : x.isZero = true) : x.isFinite = true := by
  rw [F64.isFinite_iff, F64.isZero_iff.1 h]; decide

theorem F64.isNaN_of_isInf {x : F64} (h : x.isInf = true) : x.isNaN = false := by
  simp [F64.isInf] at h; simp [F64.isNaN, h]

theorem F64.isZero_of_isInf {x : F64} (h : x.isInf = true) : x.isZero = false := by
  simp [F64.isInf] at h; simp [F64.isZero, h]; decide

theorem F64.mag_eq_zero {x : F64} : x.mag = 0 ↔ x.isZero = true := by
  rw [F64.isZero_iff, F64.mag]
  constructor
  · intro h; exact F64.magOf_strictMono.injective (h.trans F64.magOf_zero.symm)
  · intro h; rw [h]; rfl

theorem F64.val_zero {z : F64} (h : z.isZero = true) : z.val = 0 := by
  unfold F64.val; rw [F64.mag_eq_zero.2 h]; simp

theorem F64.val_ne_zero {x : F64} (h : x.isZero = false) : x.val ≠ 0 := by
  have : x.mag ≠ 0 := fun h' => by rw [F64.mag_eq_zero, h] at h'; cases h'
  unfold F64.val; cases x.sign <;> simp <;> omega

/-- A finite number that is not a zero is its own rounding. -/
theorem F64.pack_roundMag_val {x : F64} (hx : x.isFinite = true) (h0 : x.isZero = false) :
    F64.pack (decide (x.val < 0)) (F64.roundMag x.val.natAbs 1) = x := by
  have hm : x.val.natAbs = F64.magOf x.magBits := by
    unfold F64.val F64.mag; cases x.sign <;> simp
  have hp : 0 < x.mag := Nat.pos_of_ne_zero fun h => by rw [F64.mag_eq_zero, h0] at h; cases h
  have hs : decide (x.val < 0) = x.sign := by
    unfold F64.val; cases x.sign <;> simp [hp]
  rw [hm, hs, F64.roundMag_magOf (F64.isFinite_iff.1 hx).le, F64.pack_self]

/-! ## The operations on finite operands -/

theorem F64.add_finite {x y : F64} (hx : x.isFinite = true) (hy : y.isFinite = true) : F64.add x y =
    if x.val + y.val = 0 then F64.pack (x.sign && y.sign) 0
    else F64.pack (decide (x.val + y.val < 0)) (F64.roundMag (x.val + y.val).natAbs 1) := by
  simp [F64.add, F64.isNaN_of_isFinite hx, F64.isNaN_of_isFinite hy, F64.isInf_of_isFinite hx, F64.isInf_of_isFinite hy]

theorem F64.mul_finite {x y : F64} (hx : x.isFinite = true) (hy : y.isFinite = true) : F64.mul x y =
    F64.pack (x.sign != y.sign) (F64.roundMag (x.mag * y.mag) F64.unitsPerOne) := by
  simp only [F64.mul, F64.isNaN_of_isFinite hx, F64.isNaN_of_isFinite hy, F64.isInf_of_isFinite hx, F64.isInf_of_isFinite hy,
    Bool.or_false, Bool.false_eq_true, if_false]

theorem F64.div_finite {x y : F64} (hx : x.isFinite = true) (hy : y.isFinite = true) (h0 : y.isZero = false) :
    F64.div x y = F64.pack (x.sign != y.sign) (F64.roundMag (x.mag * F64.unitsPerOne) y.mag) := by
  simp only [F64.div, F64.isNaN_of_isFinite hx, F64.isNaN_of_isFinite hy, F64.isInf_of_isFinite hx, F64.isInf_of_isFinite hy, h0,
    Bool.or_false, Bool.false_eq_true, if_false]

end Sys2Proof
end

