-- ==== Sys2Proof/Laws/Codec.lean ====
section
/-! SUPPORT. The decoder and the encoder (spec/30_encoding.md R71, R74, R76): splitting and joining bit fields, and the
fields of an encoded command. -/

namespace Sys2Proof

/-- The upper part of a concatenation. -/
theorem append_high {a b : Nat} (x : BitVec a) (y : BitVec b) : (x ++ y).extractLsb' b a = x := by
  ext i hi
  simp [BitVec.getElem_extractLsb', BitVec.getLsbD_append, hi]

/-- Bits of the upper part of a concatenation. -/
theorem append_high_slice {a b : Nat} (x : BitVec a) (y : BitVec b) (j k : Nat) :
    (x ++ y).extractLsb' (b + j) k = x.extractLsb' j k := by
  apply BitVec.eq_of_getLsbD_eq
  intro i hi
  simp only [BitVec.getLsbD_extractLsb', hi, BitVec.getLsbD_append, decide_true, Bool.true_and]
  rw [if_neg (by omega)]
  congr 1
  omega

/-- The lower part of a concatenation. -/
theorem append_low {a b : Nat} (x : BitVec a) (y : BitVec b) : (x ++ y).extractLsb' 0 b = y := by
  ext i hi
  simp [BitVec.getElem_extractLsb', BitVec.getLsbD_append, hi]

/-- A word is its two parts joined. -/
theorem append_split {a b : Nat} (w : BitVec (a + b)) : w.extractLsb' b a ++ w.extractLsb' 0 b = w := by
  ext i hi
  rw [BitVec.getElem_append]
  split
  · rw [BitVec.getElem_extractLsb', Nat.zero_add, BitVec.getLsbD_eq_getElem hi]
  · next h => rw [BitVec.getElem_extractLsb', show b + (i - b) = i by omega, BitVec.getLsbD_eq_getElem hi]

/-- The two fields of a packet given as command word and operand (R71). -/
theorem Packet.cw_append (a : BitVec 32) (b : BitVec 64) : Packet.cw (a ++ b : BitVec (32 + 64)) = a :=
  append_high a b

theorem Packet.opd_append (a : BitVec 32) (b : BitVec 64) : Packet.opd (a ++ b : BitVec (32 + 64)) = b :=
  append_low a b

/-- A packet is its command word and its operand. -/
theorem Packet.eq_append (cp : Packet) : cp = (cp.cw ++ cp.opd : BitVec (32 + 64)) :=
  (append_split (a := 32) (b := 64) cp).symm

@[simp] theorem encode_cw (i : Instr) : (encode i).cw = i.commandWord := Packet.cw_append ..

@[simp] theorem encode_opd (i : Instr) : (encode i).opd = i.operand := Packet.opd_append ..

end Sys2Proof
end

