-- ==== Sys2Proof/Laws/Line.lean ====
section
/-! SUPPORT. The delay line (spec/41_float_engine.md R122, spec/42_fixed_engine.md R142): what a shift and insert
leaves at every index, and the line after many. -/

namespace Sys2Proof.Machine

variable {α : Type} {n : Nat}

@[simp] theorem shiftIn_toList (hist : Vector α (n + 1)) (s : α) :
    (shiftIn hist s).toList = hist.toList.tail ++ [s] := rfl

/-- The newest entry is the new sample. -/
@[simp] theorem shiftIn_newest (hist : Vector α (n + 1)) (s : α) : (shiftIn hist s)[n] = s := by
  rw [← Vector.getElem_toList (by simp)]
  simp

/-- Every other entry has moved down by one index. -/
theorem shiftIn_getElem (hist : Vector α (n + 1)) (s : α) {i : Nat} (h : i < n) :
    (shiftIn hist s)[i] = hist[i + 1] := by
  rw [← Vector.getElem_toList (by simp; omega), ← Vector.getElem_toList (by simp; omega)]
  simp [h]

/-- The line after samples `xs`: the last `n + 1` of the old line followed by them. -/
theorem foldl_shiftIn_toList (hist : Vector α (n + 1)) (xs : List α) :
    (xs.foldl shiftIn hist).toList = (hist.toList ++ xs).drop xs.length := by
  induction xs generalizing hist with
  | nil => simp
  | cons x xs ih =>
    have hl : 0 < hist.toList.length := by simp
    rw [List.foldl_cons, ih, shiftIn_toList, List.length_cons, List.append_assoc, List.singleton_append,
      ← List.drop_one, ← List.drop_append_of_le_length (by omega), List.drop_drop, Nat.add_comm 1]

end Sys2Proof.Machine
end

