-- ==== Sys2Proof/Laws/Engines.lean ====
section
/-! SUPPORT. The shared operations of the two engines: the Coefficient Table's constraints (spec/40_coefficient_table.md
R103, R106), a settled NaN (R128), the multiply-accumulate as a sum (R143), the offset's alternation (R147) and the
counter (R150). -/

namespace Sys2Proof

/-- This hardware's table meets the constraints of R106. -/
theorem Machine.hw_admissible : Machine.hw.table.Admissible := Machine.hwTable.admissible

/-- The integer nearest to 32768 times a tap; halfway, the one farther from zero. -/
theorem F64.scaledTap_spec (c : F64) :
    |((c.scaledTap : ℤ) : ℚ) - c.toRat * 32768| ≤ 1 / 2 ∧
    (|((c.scaledTap : ℤ) : ℚ) - c.toRat * 32768| = 1 / 2 → |c.toRat * 32768| < |((c.scaledTap : ℤ) : ℚ)|) := by
  have hU := F64.unitsPerOne_pos
  have hUn : 0 < F64.unitsPerOne := by exact_mod_cast hU
  obtain ⟨m, hm⟩ : ∃ m, m = (2 * (c.mag * 2 ^ Config.SHIFT) + F64.unitsPerOne) / (2 * F64.unitsPerOne) := ⟨_, rfl⟩
  have h1 : ((c.scaledTap : ℤ) : ℚ) = F64.signum c.sign * (m : ℚ) := by
    unfold F64.scaledTap; rw [← hm]; cases c.sign <;> simp [F64.signum]
  have h2 : c.toRat * 32768 = F64.signum c.sign * ((c.mag : ℚ) * 32768 / (F64.unitsPerOne : ℚ)) := by
    unfold F64.toRat; rw [F64.val_eq]; ring
  have hlo : m * (2 * F64.unitsPerOne) ≤ 2 * (c.mag * 2 ^ Config.SHIFT) + F64.unitsPerOne := by
    rw [hm]; exact Nat.div_mul_le_self _ _
  have hhi : 2 * (c.mag * 2 ^ Config.SHIFT) + F64.unitsPerOne < (m + 1) * (2 * F64.unitsPerOne) := by
    rw [hm]; exact Nat.lt_mul_of_div_lt (Nat.lt_succ_self _) (by omega)
  have hlo' : (m : ℚ) * (2 * F64.unitsPerOne) ≤ 2 * (c.mag * 32768) + F64.unitsPerOne := by exact_mod_cast hlo
  have hhi' : 2 * ((c.mag : ℚ) * 32768) + F64.unitsPerOne < (m + 1) * (2 * F64.unitsPerOne) := by exact_mod_cast hhi
  rw [h1, h2]
  generalize (F64.unitsPerOne : ℚ) = U at *
  rw [← mul_sub, abs_mul, abs_mul, abs_mul, F64.abs_signum, one_mul, one_mul, one_mul]
  obtain ⟨x, hx⟩ : ∃ x, x = (c.mag : ℚ) * 32768 / U := ⟨_, rfl⟩
  have hx' : (c.mag : ℚ) * 32768 = x * U := by rw [hx]; field_simp
  rw [← hx]
  rw [hx'] at hlo' hhi'
  have hx0 : 0 ≤ x := by rw [hx]; exact div_nonneg (by positivity) hU.le
  have a : (m : ℚ) ≤ x + 1 / 2 := by
    have : ((m : ℚ) - (x + 1 / 2)) * (2 * U) ≤ 0 := by linarith
    nlinarith
  have b : x < m + 1 / 2 := by
    by_contra hc
    have := mul_le_mul_of_nonneg_right (not_lt.1 hc) hU.le
    linarith
  refine ⟨by rw [abs_le]; constructor <;> linarith, fun e => ?_⟩
  rw [abs_of_nonneg hx0, abs_of_nonneg (by positivity)]
  rcases (abs_eq (by norm_num)).1 e with h | h <;> linarith

namespace Machine

/-- A value that is not a NaN settles to itself; a NaN settles to some NaN. -/
theorem settleNaN_spec (y : F64) (draws : Nat) :
    (y.isNaN = false → settleNaN y draws = (y, draws)) ∧ (y.isNaN = true → (settleNaN y draws).1.isNaN = true) := by
  refine ⟨fun h => by simp [settleNaN, h], fun h => ?_⟩
  simp only [settleNaN, h, if_true]
  generalize Config.nanDraw draws = d
  obtain ⟨sign, payload⟩ := d
  have hp := payload.isLt
  have hi := F64.infMag_eq
  unfold F64.nanOf F64.isNaN
  rw [F64.pack_magBits _ (by simp only []; omega)]
  simp only [decide_eq_true_eq]; omega

/-- The multiply-accumulate is the sum over the tap indices. -/
theorem macX_eq_sum {n : Nat} (hx : Vector Sample16 (n + 1)) (taps : Vector (BitVec 32) (n + 1)) :
    macX hx taps = ∑ i : Fin (n + 1), (hx[i]).toInt * (taps[i]).toInt := by
  have : (hx.toList.zip taps.toList).map (fun p => s16 p.1 * p.2.toInt) =
      List.ofFn (fun i : Fin (n + 1) => (hx[i]).toInt * (taps[i]).toInt) := by
    apply List.ext_getElem
    · simp
    · intro i h1 h2
      rw [List.getElem_ofFn, List.getElem_map, List.getElem_zip]
      simp only [Vector.getElem_toList]
      rfl
  rw [macX, this, List.sum_ofFn]

/-- Under `ALT` the offset alternates. -/
theorem alt_next_toNat {o : BitVec 15} (h : o.toNat ≤ 1) : (Rnd.alt.next o).toNat = 1 - o.toNat := by
  have : o = 0 ∨ o = 1 := by
    rcases Nat.le_one_iff_eq_zero_or_eq_one.1 h with h | h
    · exact .inl (BitVec.eq_of_toNat_eq (by simpa using h))
    · exact .inr (BitVec.eq_of_toNat_eq (by simpa using h))
  rcases this with rfl | rfl <;> decide

/-- The counter after a step, as a number. -/
theorem countEvent_toNat (event : Bool) (c : BitVec 32) :
    (countEvent event c).toNat = if event then min (c.toNat + 1) (2 ^ 32 - 1) else c.toNat := by
  have hc := c.isLt
  cases event
  · simp [countEvent]
  · simp [countEvent, satMax]

/-- There is an event exactly when clamping changes the value. -/
theorem satEvent_eq (q : Int) : satEvent q = decide (q ≠ sat16 q) := by
  by_cases h : q = sat16 q
  · rw [satEvent, ← h]; simp
  · simp [satEvent, h]

end Machine

end Sys2Proof
end

