-- ==== Sys2Proof/Laws/State.lean ====
section
/-! SUPPORT. What each update of the state leaves and writes, field by field. -/

namespace Sys2Proof.Machine

section respond
variable (r : Response) (s : State)
@[simp] theorem respond_float : (respond r s).float = s.float := rfl
@[simp] theorem respond_fixed : (respond r s).fixed = s.fixed := rfl
@[simp] theorem respond_mem : (respond r s).mem = s.mem := rfl
@[simp] theorem respond_commands : (respond r s).commands = s.commands := rfl
@[simp] theorem respond_responses : (respond r s).responses = s.responses ++ [r] := rfl
@[simp] theorem respond_nanDraws : (respond r s).nanDraws = s.nanDraws := rfl
end respond

section respondOk
variable (f : Bool) (v : BitVec 64) (s : State)
@[simp] theorem respondOk_float : (respondOk f v s).float = s.float := rfl
@[simp] theorem respondOk_fixed : (respondOk f v s).fixed = s.fixed := rfl
@[simp] theorem respondOk_mem : (respondOk f v s).mem = s.mem := rfl
@[simp] theorem respondOk_commands : (respondOk f v s).commands = s.commands := rfl
@[simp] theorem respondOk_responses : (respondOk f v s).responses = s.responses ++ [⟨.ok, f, v⟩] := rfl
@[simp] theorem respondOk_nanDraws : (respondOk f v s).nanDraws = s.nanDraws := rfl
end respondOk

section presentNext
variable (cp : Packet) (s : State)
@[simp] theorem presentNext_float : (presentNext cp s).float = s.float := rfl
@[simp] theorem presentNext_fixed : (presentNext cp s).fixed = s.fixed := rfl
@[simp] theorem presentNext_mem : (presentNext cp s).mem = s.mem := rfl
@[simp] theorem presentNext_commands : (presentNext cp s).commands = cp :: s.commands := rfl
@[simp] theorem presentNext_responses : (presentNext cp s).responses = s.responses := rfl
@[simp] theorem presentNext_nanDraws : (presentNext cp s).nanDraws = s.nanDraws := rfl
end presentNext

section hardReset
variable (s : State)
@[simp] theorem hardReset_float : (hardReset s).float = FloatSlot.constructed Config.N := rfl
@[simp] theorem hardReset_fixed : (hardReset s).fixed = FixedSlot.constructed Config.N := rfl
@[simp] theorem hardReset_mem : (hardReset s).mem = s.mem := rfl
@[simp] theorem hardReset_commands : (hardReset s).commands = s.commands := rfl
@[simp] theorem hardReset_responses : (hardReset s).responses = s.responses := rfl
@[simp] theorem hardReset_nanDraws : (hardReset s).nanDraws = s.nanDraws := rfl
end hardReset

section launch
variable (s : State) (m : Memory) (cps : List Packet)
@[simp] theorem launch_float : (s.launch m cps).float = s.float := rfl
@[simp] theorem launch_fixed : (s.launch m cps).fixed = s.fixed := rfl
@[simp] theorem launch_mem : (s.launch m cps).mem = m := rfl
@[simp] theorem launch_commands : (s.launch m cps).commands = cps := rfl
@[simp] theorem launch_responses : (s.launch m cps).responses = [] := rfl
@[simp] theorem launch_nanDraws : (s.launch m cps).nanDraws = s.nanDraws := rfl
end launch

section reset
@[simp] theorem reset_float : State.reset.float = FloatSlot.constructed Config.N := rfl
@[simp] theorem reset_fixed : State.reset.fixed = FixedSlot.constructed Config.N := rfl
@[simp] theorem reset_mem : State.reset.mem = [] := rfl
@[simp] theorem reset_commands : State.reset.commands = [] := rfl
@[simp] theorem reset_responses : State.reset.responses = [] := rfl
@[simp] theorem reset_nanDraws : State.reset.nanDraws = 0 := rfl
end reset

/-- Raising an error: only the response is new (R196). -/
theorem raiseError_eq (e : Status) (s : State) :
    raiseError e s = .next { s with responses := s.responses ++ [⟨e, false, 0⟩] } := rfl

/-- Accepting a command: what is left when a packet is presented. -/
theorem acceptCommand_cons {s : State} {cp : Packet} {rest : List Packet} (h : s.commands = cp :: rest) :
    acceptCommand s = some (cp, { s with commands := rest }) := by
  simp [acceptCommand, h]

/-- No packet presented, none accepted. -/
theorem acceptCommand_nil {s : State} (h : s.commands = []) : acceptCommand s = none := by
  simp [acceptCommand, h]

end Sys2Proof.Machine
end

