-- ==== Sys2Proof/Laws/Memory.lean ====
section
/-! SUPPORT. The laws of buffer memory (spec/20_memory.md R50 to R54): a read after a write, what a write leaves
alone, the canonical form, the allocated set. -/

namespace Sys2Proof.Machine

/-- A byte after a store. -/
@[simp] theorem Memory.byte_set (m : Memory) (a : Nat) (b : Byte) (x : Nat) :
    (Memory.set m a b).byte x = if x = a then some b else m.byte x := by
  induction m with
  | nil => simp [Memory.set, Memory.byte]
  | cons c m ih =>
    simp only [Memory.set]
    split
    · simp [Memory.byte]
    · split
      · next h => by_cases hx : x = a <;> simp [Memory.byte, hx, ← h]
      · next h => by_cases hx : x = c.1 <;> simp [Memory.byte, hx, ih, Ne.symm h]

/-- Every cell of a stored-to memory is the stored one or an old one. -/
theorem Memory.mem_set {m : Memory} {a : Nat} {b : Byte} {c : Host.Cell} (h : c ∈ Memory.set m a b) :
    c = (a, b) ∨ c ∈ m := by
  induction m with
  | nil => simpa [Memory.set] using h
  | cons d m ih =>
    simp only [Memory.set] at h
    split at h
    · simpa using h
    · split at h
      · simp only [List.mem_cons] at h ⊢; tauto
      · simp only [List.mem_cons] at h ⊢
        rcases h with h | h
        · tauto
        · rcases ih h with h | h <;> tauto

/-- A store to a 32-bit address keeps the canonical form. -/
theorem Memory.set_wf {m : Memory} {a : Nat} {b : Byte} (hm : m.wf) (ha : a < 2 ^ 32) :
    Memory.wf (Memory.set m a b) := by
  obtain ⟨hs, hr⟩ := hm
  refine ⟨?_, fun c hc => ?_⟩
  · clear hr
    induction m with
    | nil => simp [Memory.set]
    | cons d m ih =>
      have hd := List.pairwise_cons.1 hs
      simp only [Memory.set]
      split
      · next h =>
        refine List.pairwise_cons.2 ⟨fun c hc => ?_, hs⟩
        rcases List.mem_cons.1 hc with rfl | hc
        · exact h
        · exact Nat.lt_trans h (hd.1 c hc)
      · split
        · next h => exact List.pairwise_cons.2 ⟨fun c hc => h ▸ hd.1 c hc, hd.2⟩
        · next h1 h2 =>
          refine List.pairwise_cons.2 ⟨fun c hc => ?_, ih hd.2⟩
          rcases Memory.mem_set hc with rfl | hc
          · show d.1 < a; omega
          · exact hd.1 c hc
  · rcases Memory.mem_set hc with rfl | hc
    · exact ha
    · exact hr c hc

/-- A byte after a wide write: byte `x - a` of `v` inside the `n` bytes, the old byte outside. -/
theorem Memory.byte_write (m : Memory) (a n v x : Nat) :
    (Memory.write m a n v).byte x =
      if a ≤ x ∧ x < a + n then some (BitVec.ofNat 8 (v / 256 ^ (x - a))) else m.byte x := by
  induction n generalizing m a v with
  | zero => simp [Memory.write, show ¬ (a ≤ x ∧ x < a) by omega]
  | succ n ih =>
    rw [Memory.write, ih, Memory.byte_set]
    by_cases h1 : a + 1 ≤ x ∧ x < a + 1 + n
    · rw [if_pos h1, if_pos (by omega), Nat.div_div_eq_div_mul, ← Nat.pow_succ',
        show (x - (a + 1)).succ = x - a by omega]
    · rw [if_neg h1]
      by_cases h2 : x = a
      · subst h2; simp
      · rw [if_neg h2, if_neg (by omega)]

/-- A wide write of 32-bit addresses keeps the canonical form. -/
theorem Memory.write_wf {m : Memory} {a n v : Nat} (hm : m.wf) (ha : a + n ≤ 2 ^ 32) :
    Memory.wf (Memory.write m a n v) := by
  induction n generalizing m a v with
  | zero => exact hm
  | succ n ih => exact ih (Memory.set_wf hm (by omega)) (by omega)

/-- The allocation check of R54, said of addresses. -/
theorem Memory.allocated_iff (m : Memory) (a n : Nat) :
    m.allocated a n = true ↔ ∀ x, a ≤ x → x < a + n → (m.byte x).isSome = true := by
  induction n generalizing a with
  | zero => simp only [Memory.allocated, true_iff]; intro x h1 h2; omega
  | succ n ih =>
    rw [Memory.allocated, Bool.and_eq_true, ih]
    constructor
    · rintro ⟨h0, h⟩ x h1 h2
      rcases Nat.eq_or_lt_of_le h1 with rfl | h3
      · exact h0
      · exact h x h3 (by omega)
    · exact fun h => ⟨h a le_rfl (by omega), fun x h1 h2 => h x (by omega) (by omega)⟩

/-- A wide read answers exactly when its bytes are allocated. -/
theorem Memory.read_isSome_iff (m : Memory) (a n : Nat) :
    (m.read a n).isSome = true ↔ ∀ x, a ≤ x → x < a + n → (m.byte x).isSome = true := by
  rw [← Memory.allocated_iff]
  induction n generalizing a with
  | zero => simp [Memory.read, Memory.allocated]
  | succ n ih =>
    rw [Memory.allocated, Bool.and_eq_true, ← ih]
    cases hb : m.byte a <;> cases hr : m.read (a + 1) n <;> simp [Memory.read, hb, hr]

/-- Reads of the same bytes give the same number. -/
theorem Memory.read_congr {m m' : Memory} {a n : Nat}
    (h : ∀ x, a ≤ x → x < a + n → m.byte x = m'.byte x) : m.read a n = m'.read a n := by
  induction n generalizing a with
  | zero => rfl
  | succ n ih =>
    rw [Memory.read, Memory.read, h a le_rfl (by omega), ih (fun x h1 h2 => h x (by omega) (by omega))]

/-- A number read fits its bytes. -/
theorem Memory.read_lt {m : Memory} {a n v : Nat} (h : m.read a n = some v) : v < 256 ^ n := by
  induction n generalizing a v with
  | zero => simp only [Memory.read, Option.some.injEq] at h; omega
  | succ n ih =>
    rw [Memory.read] at h
    cases hb : m.byte a with
    | none => simp [hb] at h
    | some b =>
      cases hr : m.read (a + 1) n with
      | none => simp [hb, hr] at h
      | some u =>
        simp only [hb, hr, Option.some.injEq] at h
        have := ih hr
        have := b.isLt
        rw [pow_succ]
        omega

/-- A read of what was just written gives it, cut to the width. -/
theorem Memory.read_write_same (m : Memory) (a n v : Nat) :
    (Memory.write m a n v).read a n = some (v % 256 ^ n) := by
  induction n generalizing m a v with
  | zero => simp [Memory.read, Nat.mod_one]
  | succ n ih =>
    have hb : ((m.write a (n + 1) v).byte a) = some (BitVec.ofNat 8 v) := by
      rw [Memory.byte_write, if_pos (by omega)]; simp
    have hr : (m.write a (n + 1) v).read (a + 1) n = some (v / 256 % 256 ^ n) := by rw [Memory.write]; exact ih ..
    rw [Memory.read, hb, hr]
    show some ((BitVec.ofNat 8 v).toNat + 256 * (v / 256 % 256 ^ n)) = _
    rw [BitVec.toNat_ofNat, show (2 : Nat) ^ 8 = 256 from rfl, pow_succ', Nat.mod_mul]

/-- A write leaves a disjoint read alone. -/
theorem Memory.read_write_disjoint (m : Memory) {a n v a' n' : Nat} (h : a' + n' ≤ a ∨ a + n ≤ a') :
    (Memory.write m a n v).read a' n' = m.read a' n' :=
  Memory.read_congr fun x h1 h2 => by rw [Memory.byte_write, if_neg (by omega)]

/-- Two reads side by side are one read. -/
theorem Memory.read_add {m : Memory} {a n k u v : Nat} (h1 : m.read a n = some u) (h2 : m.read (a + n) k = some v) :
    m.read a (n + k) = some (u + 256 ^ n * v) := by
  induction n generalizing a u with
  | zero =>
    simp only [Memory.read, Option.some.injEq] at h1
    subst h1
    simpa using h2
  | succ n ih =>
    rw [Memory.read] at h1
    cases hb : m.byte a with
    | none => simp [hb] at h1
    | some b =>
      cases hr : m.read (a + 1) n with
      | none => simp [hb, hr] at h1
      | some w =>
        simp only [hb, hr, Option.some.injEq] at h1
        have := ih hr (by rw [← h2]; congr 1; omega)
        rw [show n + 1 + k = (n + k) + 1 by omega, Memory.read, hb, this]
        simp only [Option.some.injEq]; rw [← h1]; ring

/-- A write into allocated bytes allocates nothing and frees nothing. -/
theorem Memory.isSome_byte_write {m : Memory} {a n v : Nat} (h : (m.read a n).isSome = true) (x : Nat) :
    ((Memory.write m a n v).byte x).isSome = (m.byte x).isSome := by
  rw [Memory.byte_write]
  split
  · next hx => simp [(Memory.read_isSome_iff m a n).1 h x hx.1 hx.2]
  · rfl

end Sys2Proof.Machine
end

