-- ==== Sys2Proof/Laws/Stream.lean ====
section
/-! SUPPORT. The Stream Processor's loop as a fold (spec/43_stream_processor.md R172): what the element loop answers,
what it leaves in memory, and when an FBUF is admitted. -/

namespace Sys2Proof.Machine

/-- Consecutive `w`-byte writes from address `a` upward. -/
def writeAll (w : Nat) : Memory → Nat → List Nat → Memory
  | m, _, [] => m
  | m, a, v :: vs => writeAll w (m.write a w v) (a + w) vs

@[simp] theorem foldElements_length {σ : Type} (step : σ → Nat → σ × Nat) (st : σ) (vs : List Nat) :
    (foldElements step st vs).2.length = vs.length := by
  induction vs generalizing st with
  | nil => rfl
  | cons v vs ih => simp [foldElements, ih]

/-- A fold over a split list is the fold over the first part and then over the second. -/
theorem foldElements_append {σ : Type} (step : σ → Nat → σ × Nat) (st : σ) (us vs : List Nat) :
    foldElements step st (us ++ vs) =
      ((foldElements step (foldElements step st us).1 vs).1,
        (foldElements step st us).2 ++ (foldElements step (foldElements step st us).1 vs).2) := by
  induction us generalizing st with
  | nil => rfl
  | cons u us ih => simp [foldElements, ih]

/-- Elements read the same from memories that agree on their bytes. -/
theorem Holds.congr {w : Nat} {m m' : Memory} {a : Nat} {vs : List Nat}
    (h : ∀ x, a ≤ x → x < a + vs.length * w → m.byte x = m'.byte x) (hv : Holds w m a vs) : Holds w m' a vs := by
  induction vs generalizing a with
  | nil => trivial
  | cons v vs ih =>
    simp only [List.length_cons, Nat.add_mul, one_mul] at h
    refine ⟨?_, ih (fun x h1 h2 => h x (by omega) (by omega)) hv.2⟩
    rw [← hv.1]
    exact (Memory.read_congr fun x h1 h2 => h x h1 (by omega)).symm

/-- What memory holds at a place is determined. -/
theorem Holds.unique {w : Nat} {m : Memory} {a : Nat} {us vs : List Nat} (hl : us.length = vs.length)
    (hu : Holds w m a us) (hv : Holds w m a vs) : us = vs := by
  induction us generalizing a vs with
  | nil => exact (List.length_eq_zero_iff.1 hl.symm).symm
  | cons u us ih =>
    cases vs with
    | nil => simp at hl
    | cons v vs =>
      have h1 : u = v := by simpa [hu.1] using hv.1
      rw [h1, ih (by simpa using hl) hu.2 hv.2]

/-- Elements of a split list. -/
theorem Holds.append_iff {w : Nat} {m : Memory} {a : Nat} {us vs : List Nat} :
    Holds w m a (us ++ vs) ↔ Holds w m a us ∧ Holds w m (a + us.length * w) vs := by
  induction us generalizing a with
  | nil => simp [Holds]
  | cons u us ih =>
    rw [List.cons_append, Holds, Holds, ih, List.length_cons, and_assoc,
      show a + w + us.length * w = a + (us.length + 1) * w by ring]

/-- Allocated memory holds some elements. -/
theorem exists_holds {w : Nat} {m : Memory} {a k : Nat}
    (h : ∀ x, a ≤ x → x < a + k * w → (m.byte x).isSome = true) :
    ∃ vs : List Nat, vs.length = k ∧ Holds w m a vs := by
  induction k generalizing a with
  | zero => exact ⟨[], rfl, trivial⟩
  | succ k ih =>
    rw [Nat.add_mul, one_mul] at h
    obtain ⟨vs, hl, hv⟩ := ih (a := a + w) fun x h1 h2 => h x (by omega) (by omega)
    obtain ⟨v, hr⟩ := Option.isSome_iff_exists.1
      ((Memory.read_isSome_iff m a w).2 fun x h1 h2 => h x h1 (by omega))
    exact ⟨v :: vs, by simp [hl], hr, hv⟩

/-- Writing elements leaves every byte outside them alone. -/
theorem byte_writeAll {w : Nat} {m : Memory} {a x : Nat} {vs : List Nat} (h : x < a ∨ a + vs.length * w ≤ x) :
    (writeAll w m a vs).byte x = m.byte x := by
  induction vs generalizing m a with
  | nil => rfl
  | cons v vs ih =>
    simp only [List.length_cons, Nat.add_mul, one_mul] at h
    rw [writeAll, ih (by omega), Memory.byte_write, if_neg (by omega)]

/-- Elements written are there to be read. -/
theorem holds_writeAll {w : Nat} {m : Memory} {a : Nat} {vs : List Nat} (h : ∀ v ∈ vs, v < 256 ^ w) :
    Holds w (writeAll w m a vs) a vs := by
  induction vs generalizing m a with
  | nil => trivial
  | cons v vs ih =>
    refine ⟨?_, ih fun u hu => h u (by simp [hu])⟩
    rw [writeAll, Memory.read_congr (m' := m.write a w v) fun x h1 h2 => byte_writeAll (by omega),
      Memory.read_write_same, Nat.mod_eq_of_lt (h v (by simp))]

/-- Writing elements over elements allocates nothing and frees nothing. -/
theorem isSome_byte_writeAll {w : Nat} {m : Memory} {a : Nat} {us vs : List Nat} (hl : vs.length = us.length)
    (hu : Holds w m a us) (x : Nat) : ((writeAll w m a vs).byte x).isSome = (m.byte x).isSome := by
  induction vs generalizing m a us with
  | nil => rfl
  | cons v vs ih =>
    cases us with
    | nil => simp at hl
    | cons u us =>
      rw [writeAll, ih (us := us) (by simpa using hl)
        (hu.2.congr fun y h1 h2 => by rw [Memory.byte_write, if_neg (by omega)]),
        Memory.isSome_byte_write (by simp [hu.1])]

/-- Writing elements at 32-bit addresses keeps the canonical form. -/
theorem writeAll_wf {w : Nat} {m : Memory} {a : Nat} {vs : List Nat} (hm : m.wf)
    (h : a + vs.length * w ≤ 2 ^ 32) : (writeAll w m a vs).wf := by
  induction vs generalizing m a with
  | nil => exact hm
  | cons v vs ih =>
    simp only [List.length_cons, Nat.add_mul, one_mul] at h
    exact ih (Memory.write_wf hm (by omega)) (by omega)

/-- Writes of two lists, one behind the other. -/
theorem writeAll_append {w : Nat} {m : Memory} {a : Nat} {us vs : List Nat} :
    writeAll w m a (us ++ vs) = writeAll w (writeAll w m a us) (a + us.length * w) vs := by
  induction us generalizing m a with
  | nil => simp [writeAll]
  | cons u us ih =>
    rw [List.cons_append, writeAll, ih, writeAll, List.length_cons,
      show a + w + us.length * w = a + (us.length + 1) * w by ring]

/-- THE LOOP IS A FOLD (R172): over memory that holds the elements `vs`, the loop ends in the folded state and
memory holds the fold's outputs in the elements' places. -/
theorem streamLoop_eq {σ : Type} {w : Nat} {step : σ → Nat → σ × Nat} {vs : List Nat} {a : Nat} {st : σ}
    {m : Memory} (h : Holds w m a vs) :
    streamLoop w step vs.length a st m =
      some ((foldElements step st vs).1, writeAll w m a (foldElements step st vs).2) := by
  induction vs generalizing a st m with
  | nil => rfl
  | cons v vs ih =>
    rw [List.length_cons, streamLoop, h.1]
    exact ih (h.2.congr fun x h1 h2 => by rw [Memory.byte_write, if_neg (by omega)])

/-- The admission check is R54's three conditions. -/
theorem admission_eq_none_iff {w base len : Nat} {m : Memory} :
    admission w base len m = none ↔ Admitted w base len m := by
  unfold admission Admitted
  rw [← Memory.allocated_iff]
  split
  · simp_all
  · split
    · next h => simp_all
    · split <;> simp_all

/-- A good length and an admitted range: the FBUF runs to its end (R170, R173). -/
theorem streamBuffer_next {σ : Type} {w : Nat} {step : σ → Nat → σ × Nat} {st : σ} {finish : σ → Memory → State}
    {base len : Addr} {s : State} {vs : List Nat} (hlen : len.toNat % w = 0)
    (hadm : Admitted w base.toNat len.toNat s.mem) (hl : vs.length = len.toNat / w)
    (hv : Holds w s.mem base.toNat vs) :
    streamBuffer w step st finish base len s =
      .next (finish (foldElements step st vs).1 (writeAll w s.mem base.toNat (foldElements step st vs).2)) := by
  simp only [streamBuffer, hlen, ne_eq, not_true_eq_false, if_false, admission_eq_none_iff.2 hadm, ← hl,
    streamLoop_eq hv]

/-- An admitted range holds elements to filter. -/
theorem Admitted.exists_holds {w base len : Nat} {m : Memory} (hlen : len % w = 0) (h : Admitted w base len m) :
    ∃ vs : List Nat, vs.length = len / w ∧ Holds w m base vs :=
  Machine.exists_holds fun x h1 h2 => h.2.2 x h1 (by rw [Nat.div_mul_cancel (Nat.dvd_of_mod_eq_zero hlen)] at h2; exact h2)

/-- The first `k` elements of an admitted range that holds `vs`, replaced by the outputs of that many steps (R222). -/
theorem memoryAfter_eq {σ : Type} {w : Nat} {step : σ → Nat → σ × Nat} {st : σ} {base len : Addr} {k : Nat} {m : Memory}
    {vs : List Nat} (hlen : len.toNat % w = 0) (hadm : Admitted w base.toNat len.toNat m)
    (hl : vs.length = len.toNat / w) (hk : k ≤ len.toNat / w) (hv : Holds w m base.toNat vs) :
    memoryAfter w step st base len k m = writeAll w m base.toNat (foldElements step st (vs.take k)).2 := by
  have hv' : Holds w m base.toNat (vs.take k) := by
    rw [← List.take_append_drop k vs, Holds.append_iff] at hv; exact hv.1
  have htl : (vs.take k).length = k := by rw [List.length_take]; omega
  have hloop := streamLoop_eq (step := step) (st := st) hv'
  rw [htl] at hloop
  simp only [memoryAfter, hlen, admission_eq_none_iff.2 hadm, ne_eq, not_true_eq_false, Option.isSome_none,
    Bool.false_eq_true, or_self, if_false, Nat.min_eq_left hk, hloop]

/-- A bad length: no element is ever replaced (R171). -/
theorem memoryAfter_layout {σ : Type} {w : Nat} {step : σ → Nat → σ × Nat} {st : σ} {base len : Addr} {k : Nat}
    {m : Memory} (hlen : len.toNat % w ≠ 0) : memoryAfter w step st base len k m = m := by
  simp [memoryAfter, hlen]

/-- A bad length raises InvalidBufferLayout, whatever the range (R171, R195). -/
theorem streamBuffer_layout {σ : Type} {w : Nat} {step : σ → Nat → σ × Nat} {st : σ} {finish : σ → Memory → State}
    {base len : Addr} {s : State} (hlen : len.toNat % w ≠ 0) :
    streamBuffer w step st finish base len s = raiseError .invalidBufferLayout s := by
  simp [streamBuffer, hlen]

/-- A good length and a range that is not admitted: refused (R54, R194). -/
theorem streamBuffer_refused {σ : Type} {w : Nat} {step : σ → Nat → σ × Nat} {st : σ} {finish : σ → Memory → State}
    {base len : Addr} {s : State} (hlen : len.toNat % w = 0) (hadm : ¬ Admitted w base.toNat len.toNat s.mem) :
    ∃ r, admission w base.toNat len.toNat s.mem = some r ∧ streamBuffer w step st finish base len s = .refused r := by
  rw [← admission_eq_none_iff] at hadm
  obtain ⟨r, hr⟩ := Option.ne_none_iff_exists'.1 hadm
  exact ⟨r, hr, by simp [streamBuffer, hlen, hr]⟩

/-- EVERYTHING AN FBUF CAN DO: a layout error, a refusal, or the whole loop. -/
theorem streamBuffer_cases {σ : Type} {w : Nat} (step : σ → Nat → σ × Nat) (st : σ) (finish : σ → Memory → State)
    (base len : Addr) (s : State) :
    (len.toNat % w ≠ 0 ∧ streamBuffer w step st finish base len s = raiseError .invalidBufferLayout s) ∨
    (len.toNat % w = 0 ∧ ¬ Admitted w base.toNat len.toNat s.mem ∧
      ∃ r, streamBuffer w step st finish base len s = .refused r) ∨
    (len.toNat % w = 0 ∧ Admitted w base.toNat len.toNat s.mem ∧
      ∃ vs : List Nat, vs.length = len.toNat / w ∧ Holds w s.mem base.toNat vs ∧
        streamBuffer w step st finish base len s =
          .next (finish (foldElements step st vs).1
            (writeAll w s.mem base.toNat (foldElements step st vs).2))) := by
  by_cases hlen : len.toNat % w = 0
  · by_cases hadm : Admitted w base.toNat len.toNat s.mem
    · obtain ⟨vs, hl, hv⟩ := hadm.exists_holds hlen
      exact .inr (.inr ⟨hlen, hadm, vs, hl, hv, streamBuffer_next hlen hadm hl hv⟩)
    · obtain ⟨r, -, hr⟩ := streamBuffer_refused (step := step) (st := st) (finish := finish) hlen hadm
      exact .inr (.inl ⟨hlen, hadm, r, hr⟩)
  · exact .inl ⟨hlen, streamBuffer_layout hlen⟩

/-- Outputs of FBUF.F fit eight bytes. -/
theorem elementF_lt {n : Nat} (p : Params n) (st : FloatSlot n × Nat) (v : Nat) :
    (elementF p st v).2 < 256 ^ widthF := by
  have h : ∀ y : F64, bits64 y < 256 ^ widthF := fun y => y.isLt
  exact h _

/-- Outputs of FBUF.X fit two bytes. -/
theorem elementX_lt {n : Nat} (p : Params n) (st : FixedSlot n × Bool) (v : Nat) :
    (elementX p st v).2 < 256 ^ widthX := by
  have h : ∀ y : Sample16, y.toNat < 256 ^ widthX := fun y => y.isLt
  exact h _

/-- Outputs of a fold fit the width when every step's output does. -/
theorem foldElements_lt {σ : Type} {w : Nat} {step : σ → Nat → σ × Nat} (h : ∀ st v, (step st v).2 < 256 ^ w)
    (st : σ) (vs : List Nat) : ∀ y ∈ (foldElements step st vs).2, y < 256 ^ w := by
  induction vs generalizing st with
  | nil => simp [foldElements]
  | cons v vs ih =>
    intro y hy
    simp only [foldElements, List.mem_cons] at hy
    rcases hy with rfl | hy
    · exact h _ _
    · exact ih _ y hy

end Sys2Proof.Machine
end

