-- ==== Sys2Proof/Laws/Exec.lean ====
section
/-! SUPPORT. What a command and a step can do, said once: the field-by-field effect of each meaning, the frame that
all share, and the inversion of `step` (spec/30_encoding.md R70, spec/60_exceptions.md R195). -/

namespace Sys2Proof.Machine

/-- The PROC.F step with its parts named (R121). -/
theorem execProcF_eq (x : F64) (s : State) :
    execProcF x s = .next { s with
      float := (stepF hw (s.float, s.nanDraws) x).1.1
      nanDraws := (stepF hw (s.float, s.nanDraws) x).1.2
      responses := s.responses ++ [⟨.ok, false, (stepF hw (s.float, s.nanDraws) x).2⟩] } := rfl

/-- The PROC.X step with its parts named (R141). -/
theorem execProcX_eq (x : Sample16) (s : State) :
    execProcX x s = .next { s with
      fixed := (stepX hw s.fixed x).slot
      responses := s.responses ++ [⟨.ok, (stepX hw s.fixed x).event, resFixed (stepX hw s.fixed x).y⟩] } := rfl

/-- FBUF.F over an admitted range that holds the elements `vs` (R170, R172). -/
theorem execFbufF_next {base len : Addr} {s : State} {vs : List Nat} (hlen : len.toNat % 8 = 0)
    (hadm : Admitted 8 base.toNat len.toNat s.mem) (hl : vs.length = len.toNat / 8)
    (hv : Holds 8 s.mem base.toNat vs) :
    execFbufF base len s = .next { s with
      float := (foldElements (elementF hw) (s.float, s.nanDraws) vs).1.1
      nanDraws := (foldElements (elementF hw) (s.float, s.nanDraws) vs).1.2
      mem := writeAll 8 s.mem base.toNat (foldElements (elementF hw) (s.float, s.nanDraws) vs).2
      responses := s.responses ++ [⟨.ok, false, 0⟩] } :=
  streamBuffer_next hlen hadm hl hv

/-- FBUF.X over an admitted range that holds the elements `vs` (R173, R172). -/
theorem execFbufX_next {base len : Addr} {s : State} {vs : List Nat} (hlen : len.toNat % 2 = 0)
    (hadm : Admitted 2 base.toNat len.toNat s.mem) (hl : vs.length = len.toNat / 2)
    (hv : Holds 2 s.mem base.toNat vs) :
    execFbufX base len s = .next { s with
      fixed := (foldElements (elementX hw) (s.fixed, false) vs).1.1
      mem := writeAll 2 s.mem base.toNat (foldElements (elementX hw) (s.fixed, false) vs).2
      responses := s.responses ++ [⟨.ok, (foldElements (elementX hw) (s.fixed, false) vs).1.2, 0⟩] } :=
  streamBuffer_next hlen hadm hl hv

/-- Everything FBUF.F can do (R170, R195). -/
theorem execFbufF_cases (base len : Addr) (s : State) :
    (len.toNat % 8 ≠ 0 ∧ execFbufF base len s = raiseError .invalidBufferLayout s) ∨
    (len.toNat % 8 = 0 ∧ ¬ Admitted 8 base.toNat len.toNat s.mem ∧ ∃ r, execFbufF base len s = .refused r) ∨
    (len.toNat % 8 = 0 ∧ Admitted 8 base.toNat len.toNat s.mem ∧
      ∃ vs : List Nat, vs.length = len.toNat / 8 ∧ Holds 8 s.mem base.toNat vs ∧
        execFbufF base len s = .next { s with
          float := (foldElements (elementF hw) (s.float, s.nanDraws) vs).1.1
          nanDraws := (foldElements (elementF hw) (s.float, s.nanDraws) vs).1.2
          mem := writeAll 8 s.mem base.toNat (foldElements (elementF hw) (s.float, s.nanDraws) vs).2
          responses := s.responses ++ [⟨.ok, false, 0⟩] }) :=
  streamBuffer_cases ..

/-- Everything FBUF.X can do (R173, R195). -/
theorem execFbufX_cases (base len : Addr) (s : State) :
    (len.toNat % 2 ≠ 0 ∧ execFbufX base len s = raiseError .invalidBufferLayout s) ∨
    (len.toNat % 2 = 0 ∧ ¬ Admitted 2 base.toNat len.toNat s.mem ∧ ∃ r, execFbufX base len s = .refused r) ∨
    (len.toNat % 2 = 0 ∧ Admitted 2 base.toNat len.toNat s.mem ∧
      ∃ vs : List Nat, vs.length = len.toNat / 2 ∧ Holds 2 s.mem base.toNat vs ∧
        execFbufX base len s = .next { s with
          fixed := (foldElements (elementX hw) (s.fixed, false) vs).1.1
          mem := writeAll 2 s.mem base.toNat (foldElements (elementX hw) (s.fixed, false) vs).2
          responses := s.responses ++
            [⟨.ok, (foldElements (elementX hw) (s.fixed, false) vs).1.2, 0⟩] }) :=
  streamBuffer_cases ..

/-- The command port and the responses already given are the same after every command; one response is new. -/
theorem exec_frame {i : Instr} {s t : State} (h : exec i s = .next t) :
    t.commands = s.commands ∧ ∃ r, t.responses = s.responses ++ [r] := by
  cases i with
  | newengF => cases h; exact ⟨rfl, _, rfl⟩
  | newengX => cases h; exact ⟨rfl, _, rfl⟩
  | procF x => cases h; exact ⟨rfl, _, rfl⟩
  | procX x => cases h; exact ⟨rfl, _, rfl⟩
  | rdsat => cases h; exact ⟨rfl, _, rfl⟩
  | fbufF base len =>
    rw [exec] at h
    rcases execFbufF_cases base len s with ⟨-, e⟩ | ⟨-, -, r, e⟩ | ⟨-, -, vs, -, -, e⟩ <;> rw [e] at h <;> cases h
    · exact ⟨rfl, _, rfl⟩
    · exact ⟨rfl, _, rfl⟩
  | fbufX base len =>
    rw [exec] at h
    rcases execFbufX_cases base len s with ⟨-, e⟩ | ⟨-, -, r, e⟩ | ⟨-, -, vs, -, -, e⟩ <;> rw [e] at h <;> cases h
    · exact ⟨rfl, _, rfl⟩
    · exact ⟨rfl, _, rfl⟩

/-- THE PORTS DO NOT MATTER TO A COMMAND (R70): whatever packets wait and whatever responses were given before, it does
the same to the rest of the state and appends the same response, or is refused with the same reason. -/
theorem exec_ports (i : Instr) (s : State) :
    (∃ t r, exec i s = .next t ∧ t.responses = s.responses ++ [r] ∧ ∀ cs rs,
      exec i { s with commands := cs, responses := rs } = .next { t with commands := cs, responses := rs ++ [r] }) ∨
    ∃ q, exec i s = .refused q ∧ ∀ cs rs, exec i { s with commands := cs, responses := rs } = .refused q := by
  cases i with
  | newengF => exact .inl ⟨_, _, rfl, rfl, fun _ _ => rfl⟩
  | newengX => exact .inl ⟨_, _, rfl, rfl, fun _ _ => rfl⟩
  | procF x => exact .inl ⟨_, _, rfl, rfl, fun _ _ => rfl⟩
  | procX x => exact .inl ⟨_, _, rfl, rfl, fun _ _ => rfl⟩
  | rdsat => exact .inl ⟨_, _, rfl, rfl, fun _ _ => rfl⟩
  | fbufF base len =>
    by_cases hlen : len.toNat % 8 = 0
    · by_cases hadm : Admitted 8 base.toNat len.toNat s.mem
      · obtain ⟨vs, hl, hv⟩ := hadm.exists_holds hlen
        exact .inl ⟨_, _, execFbufF_next hlen hadm hl hv, rfl, fun _ _ => execFbufF_next hlen hadm hl hv⟩
      · obtain ⟨q, hq, -⟩ := streamBuffer_refused (step := elementF hw) (st := (s.float, s.nanDraws))
          (finish := fun _ _ => s) hlen hadm
        refine .inr ⟨q, ?_, fun cs rs => ?_⟩ <;> simp [exec, execFbufF, streamBuffer, hlen, hq]
    · exact .inl ⟨_, _, streamBuffer_layout hlen, rfl, fun _ _ => streamBuffer_layout hlen⟩
  | fbufX base len =>
    by_cases hlen : len.toNat % 2 = 0
    · by_cases hadm : Admitted 2 base.toNat len.toNat s.mem
      · obtain ⟨vs, hl, hv⟩ := hadm.exists_holds hlen
        exact .inl ⟨_, _, execFbufX_next hlen hadm hl hv, rfl, fun _ _ => execFbufX_next hlen hadm hl hv⟩
      · obtain ⟨q, hq, -⟩ := streamBuffer_refused (step := elementX hw) (st := (s.fixed, false))
          (finish := fun _ _ => s) hlen hadm
        refine .inr ⟨q, ?_, fun cs rs => ?_⟩ <;> simp [exec, execFbufX, streamBuffer, hlen, hq]
    · exact .inl ⟨_, _, streamBuffer_layout hlen, rfl, fun _ _ => streamBuffer_layout hlen⟩

/-- EVERYTHING A STEP CAN DO: stay idle, answer an illegal packet, or execute the decoded command. -/
theorem step_cases (s : State) :
    (s.commands = [] ∧ step s = .next s) ∨
    (∃ cp rest, s.commands = cp :: rest ∧ decode cp = none ∧
      step s = raiseError .illegalCommand { s with commands := rest }) ∨
    (∃ cp rest i, s.commands = cp :: rest ∧ decode cp = some i ∧ step s = exec i { s with commands := rest }) := by
  cases hc : s.commands with
  | nil => exact .inl ⟨rfl, by simp [step, acceptCommand_nil hc]⟩
  | cons cp rest =>
    cases hd : decode cp with
    | none => exact .inr (.inl ⟨cp, rest, rfl, hd, by simp [step, acceptCommand_cons hc, runPacket, hd]⟩)
    | some i => exact .inr (.inr ⟨cp, rest, i, rfl, hd, by simp [step, acceptCommand_cons hc, runPacket, hd]⟩)

/-- A step that accepts a packet does the same whatever packets wait behind it and whatever responses were given
before (R70): it answers with one response, or is refused with the same reason. -/
theorem step_ports (s : State) (cp : Packet) (cs : List Packet) (hc : s.commands = cp :: cs) :
    (∃ t r, step s = .next t ∧ t.commands = cs ∧ t.responses = s.responses ++ [r] ∧ ∀ cs' rs,
      step { s with commands := cp :: cs', responses := rs } =
        .next { t with commands := cs', responses := rs ++ [r] }) ∨
    ∃ q, step s = .refused q ∧ ∀ cs' rs, step { s with commands := cp :: cs', responses := rs } = .refused q := by
  simp only [step, acceptCommand, hc]
  cases hd : decode cp with
  | none =>
    simp only [runPacket, hd, raiseError_eq]
    exact .inl ⟨_, _, rfl, rfl, rfl, fun _ _ => rfl⟩
  | some i =>
    simp only [runPacket, hd]
    rcases exec_ports i { s with commands := cs } with ⟨t, r, h, hr, hp⟩ | ⟨q, h, hp⟩
    · exact .inl ⟨t, r, h, (exec_frame h).1, hr, fun cs' rs => hp cs' rs⟩
    · exact .inr ⟨q, h, fun cs' rs => hp cs' rs⟩

/-- Steps in two parts (R237). -/
theorem runSteps_add (j k : Nat) (s : State) :
    runSteps (j + k) s =
      match runSteps j s with
      | .next t => runSteps k t
      | .fault r => .fault r
      | .refused r => .refused r := by
  induction j generalizing s with
  | zero => rw [Nat.zero_add]; rfl
  | succ j ih =>
    rw [show j + 1 + k = (j + k) + 1 by omega, runSteps, runSteps]
    cases step s with
    | next t => exact ih t
    | fault r => rfl
    | refused r => rfl

/-- EVERYTHING A RUN CAN DO (R237): as many steps as packets wait use all of them up and give one response each, or are
refused; and either way they do the same with other packets behind them and after other responses. -/
theorem runSteps_ports (ps : List Packet) (s : State) (hc : s.commands = ps) :
    (∃ t rs, runSteps ps.length s = .next t ∧ t.commands = [] ∧ rs.length = ps.length ∧
      t.responses = s.responses ++ rs ∧ ∀ cs rs₀,
        runSteps ps.length { s with commands := ps ++ cs, responses := rs₀ } =
          .next { t with commands := cs, responses := rs₀ ++ rs }) ∨
    ∃ q, runSteps ps.length s = .refused q ∧ ∀ cs rs₀,
      runSteps ps.length { s with commands := ps ++ cs, responses := rs₀ } = .refused q := by
  induction ps generalizing s with
  | nil => exact .inl ⟨s, [], rfl, hc, rfl, by simp, fun cs rs₀ => by simp [runSteps]⟩
  | cons p ps ih =>
    simp only [List.length_cons, runSteps, List.cons_append]
    rcases step_ports s p ps hc with ⟨t, r, h, htc, hr, hp⟩ | ⟨q, h, hp⟩
    · simp only [h, hp]
      rcases ih t htc with ⟨u, rs, hu, huc, hl, hur, hup⟩ | ⟨q, hq, hqp⟩
      · exact .inl ⟨u, r :: rs, hu, huc, by simp [hl], by simp [hur, hr], fun cs rs₀ => by simp [hup]⟩
      · exact .inr ⟨q, hq, fun cs rs₀ => hqp _ _⟩
    · exact .inr ⟨q, by rw [h], fun cs rs₀ => by rw [hp]⟩

end Sys2Proof.Machine
end

