-- ==== Sys2Proof/Laws/PerInstr.lean ====
section
/-! SUPPORT. The facts made per instruction, one lemma per constructor of `Instr`: the packet of a command passes every
check of spec/30_encoding.md R77. -/

namespace Sys2Proof.Laws.LegalPacket

/-- The encoding of a command is a legal packet: its operation code, its zero field and its operand pass the checks. -/
def Statement (i : Instr) : Prop := i.wellFormed = true ∧ (encode i).legal = true

/-- The checks of R77 in terms of the command word and the operand. -/
theorem legal_append (cw : BitVec 32) (opd : BitVec 64) :
    Packet.legal (cw ++ opd : BitVec (32 + 64)) =
      ((cw.extractLsb' 28 4 == 1 || cw.extractLsb' 28 4 == 2 || cw.extractLsb' 28 4 == 3 ||
          (cw.extractLsb' 28 4 == 4 && cw.extractLsb' 27 1 == 1)) && cw.extractLsb' 0 27 == 0 &&
        (if cw.extractLsb' 28 4 == 1 || cw.extractLsb' 28 4 == 4 then opd == 0
         else if cw.extractLsb' 28 4 == 2 && cw.extractLsb' 27 1 == 1 then opd.extractLsb' 16 48 == 0
         else true)) := by
  have h1 : Packet.opc (cw ++ opd : BitVec (32 + 64)) = cw.extractLsb' 28 4 :=
    append_high_slice cw opd 28 4
  have h2 : Packet.path (cw ++ opd : BitVec (32 + 64)) = cw.extractLsb' 27 1 :=
    append_high_slice cw opd 27 1
  have h3 : Packet.z (cw ++ opd : BitVec (32 + 64)) = cw.extractLsb' 0 27 :=
    append_high_slice cw opd 0 27
  unfold Packet.legal Packet.opcodeOk Packet.zOk Packet.operandOk
  rw [h1, h2, h3, Packet.opd_append]

theorem newengF : Statement .newengF := ⟨rfl, by decide⟩

theorem newengX : Statement .newengX := ⟨rfl, by decide⟩

theorem procF (sample : F64) : Statement (.procF sample) :=
  ⟨rfl, by rw [show encode (.procF sample) = (0x20000000 : BitVec 32) ++ sample from rfl, legal_append]; rfl⟩

theorem procX (sample : Sample16) : Statement (.procX sample) := by
  refine ⟨rfl, ?_⟩
  rw [show encode (.procX sample) = (0x28000000 : BitVec 32) ++ ((0 : BitVec 48) ++ sample) from rfl, legal_append,
    append_high]
  rfl

theorem fbufF (base len : Addr) : Statement (.fbufF base len) :=
  ⟨rfl, by rw [show encode (.fbufF base len) = (0x30000000 : BitVec 32) ++ (len ++ base) from rfl, legal_append]; rfl⟩

theorem fbufX (base len : Addr) : Statement (.fbufX base len) :=
  ⟨rfl, by rw [show encode (.fbufX base len) = (0x38000000 : BitVec 32) ++ (len ++ base) from rfl, legal_append]; rfl⟩

theorem rdsat : Statement .rdsat := ⟨rfl, by decide⟩

end Sys2Proof.Laws.LegalPacket
end

