-- ==== Sys2Proof/Tests/Slice0.lean ====
section
/-! SUPPORT. The model's own tests.  Every expected value is from spec/95_test_vectors.md or from a worked example of the
rule named; and a state and operands that meet the hypotheses of each statement of Certificates/Slice0. -/

namespace Sys2Proof.Tests

open Sys2Proof.Machine

/-! ## WellFormed: an ill-formed packet for each check, which the check refuses (vectors E1 to E6) -/

/-- Vector E5, and the `P` = 0 form of RDSAT. -/
theorem test_opcodeOk_refuses : Packet.opcodeOk 0x500000000000000000000000 = false ∧
    Packet.opcodeOk 0x400000000000000000000000 = false ∧ Packet.opcodeOk 0 = false := by decide

/-- Vector E2. -/
theorem test_zOk_refuses : Packet.zOk 0x100000010000000000000000 = false := by decide

/-- Vectors E1 and E3. -/
theorem test_operandOk_refuses : Packet.operandOk 0x100000000000000000000001 = false ∧
    Packet.operandOk 0x280000000000000000010000 = false := by decide

/-- Vector E6 and the all-zero packet. -/
theorem test_legal_refuses : Packet.legal 0xFFFFFFFFFFFFFFFFFFFFFFFF = false ∧ Packet.legal 0 = false := by decide

/-- Vectors E4 and E7 are legal. -/
theorem test_legal_accepts : Packet.legal 0x28000000000000000000FFFF = true ∧
    Packet.legal 0x200000007FF8000000000001 = true := by decide

/-! ## Decode: words written out from the tables of spec/30_encoding.md R71, R73 and R74 -/

/-- `OPC` = 1, `P` = 0. -/
theorem test_decode_newengF : decode (0b0001#4 ++ 0b0#1 ++ 0#27 ++ 0#64) = some .newengF := by decide

/-- `OPC` = 1, `P` = 1. -/
theorem test_decode_newengX : decode (0b0001#4 ++ 0b1#1 ++ 0#27 ++ 0#64) = some .newengX := by decide

/-- `OPC` = 2, `P` = 0, operand 1.0 (sign 0, biased exponent 1023, fraction 0). -/
theorem test_decode_procF :
    decode (0b0010#4 ++ 0b0#1 ++ 0#27 ++ (0b0#1 ++ 1023#11 ++ 0#52)) = some (.procF 0x3FF0000000000000) := by decide

/-- `OPC` = 2, `P` = 1, operand -1000 in 16 bits. -/
theorem test_decode_procX :
    decode (0b0010#4 ++ 0b1#1 ++ 0#27 ++ (0#48 ++ 64536#16)) = some (.procX (BitVec.ofInt 16 (-1000))) := by decide

/-- `OPC` = 3, `P` = 0, `LEN` = 48 above `BASE` = 0x1000. -/
theorem test_decode_fbufF :
    decode (0b0011#4 ++ 0b0#1 ++ 0#27 ++ (48#32 ++ 0x1000#32)) = some (.fbufF 0x1000 48) := by decide

/-- `OPC` = 3, `P` = 1, `LEN` = 10 above `BASE` = 0x2000. -/
theorem test_decode_fbufX :
    decode (0b0011#4 ++ 0b1#1 ++ 0#27 ++ (10#32 ++ 0x2000#32)) = some (.fbufX 0x2000 10) := by decide

/-- `OPC` = 4, `P` = 1. -/
theorem test_decode_rdsat : decode (0b0100#4 ++ 0b1#1 ++ 0#27 ++ 0#64) = some .rdsat := by decide

/-- Vectors E1, E2, E3, E5, E6 are illegal. -/
theorem test_decode_illegal : decode 0x100000000000000000000001 = none ∧ decode 0x100000010000000000000000 = none ∧
    decode 0x280000000000000000010000 = none ∧ decode 0x500000000000000000000000 = none ∧
    decode 0xFFFFFFFFFFFFFFFFFFFFFFFF = none := by decide

/-- The table words of spec/opcode_table.json, operand bits zero. -/
theorem test_decodeTableWord : [0x10000000, 0x18000000, 0x20000000, 0x28000000, 0x30000000, 0x38000000, 0x48000000].map
      (decodeTableWord 32) =
    [some .newengF, some .newengX, some (.procF 0), some (.procX 0), some (.fbufF 0 0), some (.fbufX 0 0),
      some .rdsat] := by decide

/-! ## The test tables of spec/95_test_vectors.md section 2.1 (none is this hardware's) -/

/-- A configuration with five taps. -/
def five (coeff : Vector F64 5) (fpcoeff : Vector (BitVec 32) 5) : Params 4 where
  table := { coeff := coeff, fpcoeff := fpcoeff, gain := 0x3FF0000000000000 }
  rnd   := Rnd.alt
  num   := Numerics.ieee

/-- T5A: 0.125, 0.25, 0.25, 0.25, 0.125. -/
def t5a : Params 4 := five
  #v[0x3FC0000000000000, 0x3FD0000000000000, 0x3FD0000000000000, 0x3FD0000000000000, 0x3FC0000000000000]
  #v[4096, 8192, 8192, 8192, 4096]

/-- T5B: -0.125, 0.25, 0.75, 0.25, -0.125. -/
def t5b : Params 4 := five
  #v[0xBFC0000000000000, 0x3FD0000000000000, 0x3FE8000000000000, 0x3FD0000000000000, 0xBFC0000000000000]
  #v[BitVec.ofInt 32 (-4096), 8192, 24576, 8192, BitVec.ofInt 32 (-4096)]

/-- T5C: 0.1, 0.2, 0.4, 0.2, 0.1. -/
def t5c : Params 4 := five
  #v[0x3FB999999999999A, 0x3FC999999999999A, 0x3FD999999999999A, 0x3FC999999999999A, 0x3FB999999999999A]
  #v[3277, 6554, 13107, 6554, 3277]

/-- T5R, not symmetric: 0.5, 0.25, 0.125, 0.0625, 0.03125. -/
def t5r : Params 4 := five
  #v[0x3FE0000000000000, 0x3FD0000000000000, 0x3FC0000000000000, 0x3FB0000000000000, 0x3FA0000000000000]
  #v[16384, 8192, 4096, 2048, 1024]

/-- The tables meet R106, T5R does not. -/
theorem test_admissible : t5b.table.Admissible ∧ t5c.table.Admissible ∧ ¬ t5r.table.Symmetric := by decide +kernel

/-- Table derivation corner cases: 2^-16 gives 1, -2^-16 gives -1, 1.5 * 2^-15 gives 2, 1.0 gives 32768. -/
theorem test_scaledTap : F64.scaledTap 0x3EF0000000000000 = 1 ∧ F64.scaledTap 0xBEF0000000000000 = -1 ∧
    F64.scaledTap 0x3F08000000000000 = 2 ∧ F64.scaledTap 0x3FF0000000000000 = 32768 := by decide +kernel

/-! ## The operations -/

/-- Vector X7. -/
theorem test_asr15 : [-1, -16384, -16385, -32768, -32769, 32767, 32768].map asr15 = [-1, -1, -1, -1, -2, 0, 1] := by
  decide

/-- R150: the ends of the range are no event, the next values are. -/
theorem test_sat16 : [32767, 32768, -32768, -32769].map (fun q => (sat16 q, satEvent q)) =
    [(32767, false), (32767, true), (-32768, false), (-32768, true)] := by decide

/-- R25: the counter stops at 2^32 - 1. -/
theorem test_countEvent : countEvent true 0xFFFFFFFF = 0xFFFFFFFF ∧ countEvent true 0xFFFFFFFE = 0xFFFFFFFF ∧
    countEvent false 7 = 7 := by decide

/-- R52: little-endian, the two samples of vector S2 at 0x2000. -/
theorem test_memory : Memory.read [(0x2000, 0xE8), (0x2001, 0x03), (0x2002, 0x18), (0x2003, 0xFC)] 0x2000 2 = some 1000 ∧
    Memory.write [] 0x2000 2 0xFF83 = [(0x2000, 0x83), (0x2001, 0xFF)] := by decide

/-- R124: 1/1681 and 861/1681 (vector F4), a subnormal quotient, and infinity times zero. -/
theorem test_binary64 :
    F64.div 0x3FF0000000000000 0x409A440000000000 = 0x3F437E3FA847E18B ∧
    F64.div 0x408AE80000000000 0x409A440000000000 = 0x3FE063E7063E7064 ∧
    F64.div 0x0010000000000000 0x4000000000000000 = 0x0008000000000000 ∧
    (F64.mul 0x7FF0000000000000 0).isNaN = true := by decide +kernel

/-- R80: decimal literals of the test tables, an integer out of range, a pattern, and an address of 33 bits. -/
theorem test_assembler :
    ((parseLine "PROC.F -0.125 ; F1".toList).bind AsmLine.assemble = some (.procF 0xBFC0000000000000)) ∧
    ((parseLine "PROC.F 0.1".toList).bind AsmLine.assemble = some (.procF 0x3FB999999999999A)) ∧
    ((parseLine "PROC.F 0x7FF8000000000001".toList).bind AsmLine.assemble = some (.procF 0x7FF8000000000001)) ∧
    ((parseLine "PROC.X -32768".toList).bind AsmLine.assemble = some (.procX 0x8000)) ∧
    ((parseLine "PROC.X 32768".toList).bind AsmLine.assemble = none) ∧
    ((parseLine "FBUF.X 0x2000, 10".toList).bind AsmLine.assemble = some (.fbufX 0x2000 10)) ∧
    ((parseLine "FBUF.F 0x100000000, 8".toList).bind AsmLine.assemble = none) := by decide +kernel

/-! ## One step of each command -/

/-- A slot with five float entries. -/
def floatSlot (hf : Vector F64 5) : FloatSlot 4 × Nat := (⟨hf⟩, 0)

/-- A slot with five fixed entries. -/
def fixedSlot (hx : List Int) (offs : BitVec 15) (satcnt : BitVec 32) (h : (hx.map (BitVec.ofInt 16)).length = 5) :
    FixedSlot 4 :=
  ⟨⟨(hx.map (BitVec.ofInt 16)).toArray, by simpa using h⟩, offs, satcnt⟩

/-- R120, the worked example: NEWENG.F makes the entry of `PROC.F 1.0` +0.0 and leaves the Fixed slot. -/
theorem test_newengF : ∃ t, exec .newengF { State.reset with float := ⟨Vector.replicate 81 0x3FF0000000000000⟩ } = .next t ∧
    t.float = ⟨Vector.replicate 81 0⟩ ∧ t.responses.map Response.packet = [0] ∧ t.fixed = State.reset.fixed :=
  ⟨_, rfl, rfl, rfl, rfl⟩

/-- R140, the worked example: NEWENG.X clears the counter and the offset. -/
theorem test_newengX : ∃ t, exec .newengX { State.reset with fixed := ⟨Vector.replicate 81 5, 1, 2⟩ } = .next t ∧
    t.fixed = ⟨Vector.replicate 81 0, 0, 0⟩ ∧ t.responses.map Response.packet = [0] ∧ t.float = State.reset.float :=
  ⟨_, rfl, rfl, rfl, rfl⟩

/-- Vectors F9, F10 step 4 and F2 step 6: the index pairing, the order and the rounding of the sum, the history. -/
theorem test_procF : (stepF t5r (floatSlot #v[0, 0, 0, 0, 0]) 0x3FF0000000000000).2 = 0x3FA0000000000000 ∧
    (stepF t5c (floatSlot #v[0, 0x3FF0000000000000, 0x3FF0000000000000, 0x3FF0000000000000, 0x3FF0000000000000])
      0x3FF0000000000000).2 = 0x3FF0000000000001 ∧
    stepF t5b (floatSlot #v[0x4000000000000000, 0x4008000000000000, 0x4010000000000000, 0x4014000000000000,
        0x4018000000000000]) 0x401C000000000000 =
      (floatSlot #v[0x4008000000000000, 0x4010000000000000, 0x4014000000000000, 0x4018000000000000, 0x401C000000000000],
        0x4014000000000000) := by decide +kernel

/-- Vectors F6, F7 steps 0 and 1 and F8 step 3: zeros, the sign of an infinity, infinities of opposite sign, overflow
before the last term. -/
theorem test_procF_not_finite :
    (stepF t5b (floatSlot #v[0, 0, 0, 0, 0]) 0x8000000000000000).2 = 0 ∧
    (stepF t5b (floatSlot #v[0, 0, 0, 0, 0]) 0x7FF0000000000000).2 = 0xFFF0000000000000 ∧
    (outputF t5b ⟨#v[0, 0, 0, 0x7FF0000000000000, 0x7FF0000000000000]⟩).isNaN = true ∧
    (stepF t5b (floatSlot #v[0, 0, 0x7FEFFFFFFFFFFFFF, 0x7FEFFFFFFFFFFFFF, 0x7FEFFFFFFFFFFFFF]) 0x7FEFFFFFFFFFFFFF).2 =
      0x7FF0000000000000 := by decide +kernel

/-- Vectors X1 steps 4 and 5 and X8 step 0: a half up, a half down below zero, the index pairing. -/
theorem test_procX :
    (stepX t5a (fixedSlot [0, 4, 4, -4, -4] 0 0 rfl) 0).y = 0 ∧
    stepX t5a (fixedSlot [4, 4, -4, -4, 0] 1 0 rfl) 0 =
      ⟨fixedSlot [4, -4, -4, 0, 0] 0 0 rfl, BitVec.ofInt 16 (-2), false⟩ ∧
    (stepX t5r (fixedSlot [0, 0, 0, 0, 0] 0 0 rfl) 32).y = 1 := by decide

/-- Vector X3 steps 4 and 9: saturation up and down, counted. -/
theorem test_procX_saturates :
    stepX t5b (fixedSlot [0, -32768, 32767, 32767, 32767] 0 0 rfl) 0x8000 =
      ⟨fixedSlot [-32768, 32767, 32767, 32767, -32768] 1 1 rfl, 0x7FFF, true⟩ ∧
    stepX t5b (fixedSlot [-32768, 32767, -32768, -32768, -32768] 1 1 rfl) 0x7FFF =
      ⟨fixedSlot [32767, -32768, -32768, -32768, 32767] 0 2 rfl, 0x8000, true⟩ := by decide

/-- Vector S1: the element loop of FBUF.F over six samples. -/
theorem test_fbufF : (streamLoop 8 (elementF t5b) 6 0x1000 (floatSlot #v[0, 0, 0, 0, 0])
      (Memory.write (Memory.write [] 0x1008 40 0) 0x1000 8 0x3FF0000000000000)).map
        (fun r => [0, 8, 16, 24, 32, 40].map fun k => r.2.read (0x1000 + k) 8) =
    some [some 0xBFC0000000000000, some 0x3FD0000000000000, some 0x3FE8000000000000, some 0x3FD0000000000000,
      some 0xBFC0000000000000, some 0] := by decide +kernel

/-- Vectors E9 and E10: a misaligned base is refused, a bad length is answered before the base is looked at. -/
theorem test_fbufF_range : exec (.fbufF 0x1004 8) State.reset = .refused .misalignedBuffer ∧
    exec (.fbufF 0x1004 7) State.reset =
      .next { State.reset with responses := [⟨.invalidBufferLayout, false, 0⟩] } := ⟨rfl, rfl⟩

/-- Vector S2: the element loop of FBUF.X over two samples. -/
theorem test_fbufX : streamLoop 2 (elementX t5b) 2 0x2000 (fixedSlot [0, 0, 0, 0, 0] 0 0 rfl, false)
      [(0x2000, 0xE8), (0x2001, 0x03), (0x2002, 0x18), (0x2003, 0xFC)] =
    some ((fixedSlot [0, 0, 0, 1000, -1000] 0 0 rfl, false),
      [(0x2000, 0x83), (0x2001, 0xFF), (0x2002, 0x77), (0x2003, 0x01)]) := by decide

/-- Vectors S4 and S7: the empty buffer; an odd base, a wrap, an unallocated byte. -/
theorem test_fbufX_range : exec (.fbufX 0x2006 0) State.reset = .next { State.reset with responses := [⟨.ok, false, 0⟩] } ∧
    exec (.fbufX 0x2001 4) State.reset = .refused .misalignedBuffer ∧
    exec (.fbufX 0xFFFFFFFE 4) State.reset = .refused .wrappingBuffer ∧
    exec (.fbufX 0x2000 2) State.reset = .refused .unallocatedBuffer := ⟨rfl, rfl, rfl, rfl⟩

/-- R156, the worked example: the counter is read, not cleared. -/
theorem test_rdsat : ∃ t, exec .rdsat { State.reset with fixed := ⟨Vector.replicate 81 5, 0, 2⟩ } = .next t ∧
    t.responses.map Response.packet = [2] ∧ t.fixed.satcnt = 2 := ⟨_, rfl, rfl, rfl⟩

/-- The first packet after reset is the one presented, and is run by the next step. -/
theorem test_step : step (State.reset.withFetchWord 32 0x48000000) =
      .next { State.reset with responses := [⟨.ok, false, 0⟩] } ∧
    step (State.reset.withFetchWord 32 0x50000000) =
      .next { State.reset with responses := [⟨.illegalCommand, false, 0⟩] } := ⟨rfl, rfl⟩

/-! ## Witnesses: each statement's hypotheses are met together -/

/-- Buffer memory with `bytes` from an address upward. -/
def memoryAt (base : Nat) (bytes : List Byte) : Memory := bytes.mapIdx fun k b => (base + k, b)

/-- The state after reset with a buffer of eight zero bytes at 0x1000. -/
def withBuffer : State := { State.reset with mem := memoryAt 0x1000 (List.replicate 8 0) }

/-- The state after reset with a buffer of sixteen zero bytes at the top of the address space. -/
def withTopBuffer : State := { State.reset with mem := memoryAt 0xFFFFFFF0 (List.replicate 16 0) }

theorem buffer_admitted (w len : Nat) (hw : w = 2 ∨ w = 8) (hl : len = 0 ∨ len = 8) : Admitted w 0x1000 len withBuffer.mem := by
  rw [← admission_eq_none_iff]
  rcases hw with rfl | rfl <;> rcases hl with rfl | rfl <;> decide

theorem topBuffer_admitted (w : Nat) (hw : w = 2 ∨ w = 8) : Admitted w 0xFFFFFFF0 16 withTopBuffer.mem := by
  rw [← admission_eq_none_iff]
  rcases hw with rfl | rfl <;> decide

theorem witness_illegalPackets : decode 0 = none ∧ decode 0x500000000000000000000000 = none ∧
    decode 0xF00000000000000000000000 = none ∧ decode 0x400000000000000000000000 = none ∧
    decode 0x480000010000000000000000 = none ∧ decode 0x480000000000000000000001 = none ∧
    decode 0x280000000000000000010000 = none ∧ (decode 0x28000000000000000000FFFF).isSome = true := by decide

theorem witness_otherPackets : ∃ (s : State) (cp : Packet) (rest : List Packet), s.commands = cp :: rest ∧
    ∀ i : Instr, encode i ≠ cp := by
  refine ⟨State.reset.launch [] [0], 0, [], rfl, fun i h => ?_⟩
  have h' := congrArg Packet.cw h
  rw [encode_cw] at h'
  cases i <;> exact absurd (show (_ : BitVec 32) = Packet.cw 0 from h') (by simp only [Instr.commandWord]; decide)

theorem witness_stepRuns : (State.reset.launch [] [encode .rdsat]).commands = [encode .rdsat] ∧
    decode (encode .rdsat) = some .rdsat ∧ Instr.wellFormed .rdsat = true := by decide

/-- R237: a run from the end of another shows its own responses only; vector E5 and RDSAT. -/
theorem test_run : ∃ t u : State, State.reset.run [] [encode .rdsat] = .next t ∧
    t.run t.mem [0x500000000000000000000000, encode .rdsat] = .next u ∧
    t.observe.responses = [0] ∧ u.observe.responses = [0x200000000000000000000000, 0] :=
  ⟨_, _, rfl, rfl, rfl, by decide⟩

/-- A run with no FBUF, one that ends and goes on, and one that goes on with a refused packet. -/
theorem witness_run : ∃ t u : State,
    (∀ cp ∈ [encode .rdsat], ∀ base len : Addr, decode cp ≠ some (.fbufF base len) ∧ decode cp ≠ some (.fbufX base len)) ∧
    State.reset.run [] [encode .rdsat] = .next t ∧ t.run t.mem [encode .newengX] = .next u ∧
    t.run t.mem [encode (.fbufX 0x2000 2)] = .refused .unallocatedBuffer := by
  refine ⟨_, _, fun cp hcp base len => ?_, rfl, rfl, rfl⟩
  rw [List.mem_singleton.1 hcp, show decode (encode .rdsat) = some .rdsat by decide]
  exact ⟨fun h => (Instr.noConfusion (Option.some.inj h)), fun h => (Instr.noConfusion (Option.some.inj h))⟩

theorem witness_idle : State.reset.commands = [] := rfl

theorem witness_oneResponse : ∃ s t : State, s.commands ≠ [] ∧ step s = .next t :=
  ⟨State.reset.launch [] [0], _, by decide, rfl⟩

/-- A response with each status. -/
theorem witness_format : ∃ (s t u v : State) (r : Response),
    (s.commands = encode .rdsat :: t.commands ∧ step s = .next t ∧ t.responses = s.responses ++ [r] ∧ r.stat = .ok) ∧
    step { s with commands := [encode (.fbufX 0 1)] } = .next u ∧ u.responses = s.responses ++ [⟨.invalidBufferLayout, false, 0⟩] ∧
    step { s with commands := [0] } = .next v ∧ v.responses = s.responses ++ [⟨.illegalCommand, false, 0⟩] :=
  ⟨State.reset.launch [] [encode .rdsat], _, _, _, ⟨.ok, false, 0⟩, ⟨rfl, rfl, rfl, rfl⟩, rfl, rfl, rfl, rfl⟩

/-- No element, and all of them, of a buffer that ends at 2^32. -/
theorem witness_resetDuring : (16 : Addr).toNat % 2 = 0 ∧
    Admitted 2 (0xFFFFFFF0 : Addr).toNat (16 : Addr).toNat withTopBuffer.mem ∧
    0 ≤ (16 : Addr).toNat / 2 ∧ 8 ≤ (16 : Addr).toNat / 2 :=
  ⟨by decide, topBuffer_admitted 2 (.inl rfl), by decide, by decide⟩

/-- No element, and both of them, of a float buffer that ends at 2^32. -/
theorem witness_resetDuringF : (16 : Addr).toNat % 8 = 0 ∧
    Admitted 8 (0xFFFFFFF0 : Addr).toNat (16 : Addr).toNat withTopBuffer.mem ∧
    0 ≤ (16 : Addr).toNat / 8 ∧ 2 ≤ (16 : Addr).toNat / 8 :=
  ⟨by decide, topBuffer_admitted 8 (.inr rfl), by decide, by decide⟩

/-- A command that is no FBUF, and an FBUF of each path with a bad length. -/
theorem witness_resetDuringOther : ∀ i ∈ [Instr.procX 5, .fbufF 0 7, .fbufX 0 7], ∀ base len : Addr,
    (i = .fbufF base len → len.toNat % 8 ≠ 0) ∧ (i = .fbufX base len → len.toNat % 2 ≠ 0) := by
  intro i hi base len
  simp only [List.mem_cons, List.not_mem_nil, or_false] at hi
  rcases hi with rfl | rfl | rfl <;> refine ⟨fun h => ?_, fun h => ?_⟩ <;> cases h <;> decide

/-- Finite operands with a sum of zero, and a divisor that is not zero; the largest and the smallest magnitude. -/
theorem witness_arithmetic : F64.isFinite 0x3FF0000000000000 = true ∧ F64.isFinite 0xBFF0000000000000 = true ∧
    F64.toRat 0x3FF0000000000000 + F64.toRat 0xBFF0000000000000 = 0 ∧ F64.isZero 0xBFF0000000000000 = false ∧
    F64.isFinite 0x7FEFFFFFFFFFFFFF = true ∧ F64.isFinite 0x0000000000000001 = true := by
  refine ⟨by decide, by decide, ?_, by decide, by decide, by decide⟩
  have : F64.val 0x3FF0000000000000 + F64.val 0xBFF0000000000000 = 0 := by decide +kernel
  unfold F64.toRat
  rw [← add_div, ← Int.cast_add, this, Int.cast_zero, zero_div]

/-- A NaN, infinities of the same and of opposite sign, an infinity with a finite number of either sign, with a zero;
zeros. -/
theorem witness_nonFinite : F64.isNaN 0x7FF8000000000000 = true ∧ F64.isNaN 0x7FF0000000000001 = true ∧
    F64.isInf 0x7FF0000000000000 = true ∧ F64.isInf 0xFFF0000000000000 = true ∧
    F64.sign 0x7FF0000000000000 ≠ F64.sign 0xFFF0000000000000 ∧ F64.isFinite 0x7FEFFFFFFFFFFFFF = true ∧
    F64.isZero 0 = true ∧ F64.isZero 0x8000000000000000 = true ∧ F64.isZero 0x7FEFFFFFFFFFFFFF = false ∧
    F64.isNaN 0x7FEFFFFFFFFFFFFF = false ∧ F64.isFinite 0xBFF0000000000000 = true ∧
    F64.isZero 0xBFF0000000000000 = false ∧ F64.isNaN 0xBFF0000000000000 = false ∧ F64.isNaN 0x7FF0000000000000 = false ∧
    F64.isZero 0x7FF0000000000000 = false := by decide

theorem witness_zeros : F64.isZero 0 = true ∧ F64.isZero 0x8000000000000000 = true ∧
    F64.isFinite 0x3FF0000000000000 = true ∧ F64.isZero 0x3FF0000000000000 = false ∧ F64.isFinite 0 = true ∧
    0 < F64.toRat 0x3FF0000000000000 := by
  refine ⟨by decide, by decide, by decide, by decide, by decide, ?_⟩
  have : 0 < F64.val 0x3FF0000000000000 := by decide +kernel
  exact div_pos (by exact_mod_cast this) F64.unitsPerOne_pos

/-- A constructed slot with -0.0 as the sample. -/
theorem witness_zeroInput : F64.isZero 0x8000000000000000 = true ∧
    (∀ i (h : i < Config.N), (State.reset.float.hf[i + 1]).isZero = true) ∧
    ∀ x ∈ [(0 : F64), 0x8000000000000000], x.isZero = true := by
  refine ⟨by decide, fun i h => ?_, fun x hx => ?_⟩
  swap
  · rcases List.mem_pair.1 hx with rfl | rfl <;> decide
  have : State.reset.float.hf[i + 1] = 0 := by simp [FloatSlot.constructed]
  rw [this]; decide

theorem witness_floatImpulse : F64.isFinite 0x3FF0000000000000 = true ∧ F64.isFinite 0x8000000000000000 = true ∧
    F64.isFinite 0xFFEFFFFFFFFFFFFF = true := by decide

/-- No sample, and as many as the history has entries, on either path. -/
theorem witness_history : ([] : List F64).length ≤ Config.N + 1 ∧ (List.replicate 81 (0 : F64)).length ≤ Config.N + 1 ∧
    ([] : List Sample16).length ≤ Config.N + 1 ∧ (List.replicate 81 (5 : Sample16)).length ≤ Config.N + 1 :=
  ⟨Nat.zero_le _, le_of_eq List.length_replicate, Nat.zero_le _, le_of_eq List.length_replicate⟩

theorem witness_procFDepends : ∃ s s' : State, s.float = s'.float ∧ s ≠ s' :=
  ⟨State.reset, { State.reset with nanDraws := 5 }, rfl, fun h => absurd (congrArg State.nanDraws h) (by decide)⟩

theorem witness_procXDepends : ∃ s s' : State, s.fixed = s'.fixed ∧ s ≠ s' :=
  ⟨State.reset, { State.reset with nanDraws := 5 }, rfl, fun h => absurd (congrArg State.nanDraws h) (by decide)⟩

/-- Both offsets the next-offset clause of PROC.X speaks of. -/
theorem witness_procX_offsets : (0 : BitVec 15).toNat ≤ 1 ∧ (1 : BitVec 15).toNat ≤ 1 := by decide

theorem witness_alt : Rnd.alt.Reachable 0 ∧ Rnd.alt.Reachable 1 := ⟨.zero, .next .zero⟩

/-- The scheme with no bias and the scheme with the largest one are admissible. -/
theorem witness_scheme : Rnd.Admissible ⟨fun _ => 0, id⟩ ∧ Rnd.Admissible ⟨fun _ => 32767, id⟩ ∧
    Rnd.Reachable ⟨fun _ => 0, id⟩ 0 ∧ Rnd.Reachable ⟨fun _ => 32767, id⟩ 0 :=
  ⟨fun _ _ => ⟨by norm_num, by norm_num⟩, fun _ _ => ⟨by norm_num, by norm_num⟩, .zero, .zero⟩

theorem witness_accumulator : (0 : ℤ) ≤ 0 ∧ (0 : ℤ) ≤ 32767 ∧ (32767 : ℤ) ≤ 32767 := by decide

theorem witness_zeroInputX : Rnd.Admissible ⟨fun _ => 32767, id⟩ ∧ Rnd.Reachable ⟨fun _ => 32767, id⟩ 0 ∧
    ∀ i (h : i < 4 + 1), (shiftIn (FixedSlot.constructed 4).hx 0)[i] = 0 :=
  ⟨fun _ _ => ⟨by norm_num, by norm_num⟩, .zero, by decide⟩

theorem witness_counter : ∃ s t : State, exec (.procX 5) s = .next t ∧ Instr.procX 5 ≠ .newengX ∧
    s.fixed.satcnt.toNat = 2 ^ 32 - 1 :=
  ⟨{ State.reset with fixed := ⟨Vector.replicate 81 0, 0, 0xFFFFFFFF⟩ }, _, rfl, by decide, by decide⟩

theorem witness_memory : (∀ j, j < 2 → Memory.byte (memoryAt 0xFFFFFFFE [0x34, 0x12]) (0xFFFFFFFE + j) =
      some ((fun k => if k = 0 then (0x34 : Byte) else 0x12) j)) ∧ 0xFFFF < 2 ^ (8 * 2) ∧
    (0xFFFFFFFD < 0xFFFFFFFE ∨ 0xFFFFFFFE + 2 ≤ 0xFFFFFFFD) ∧ (0x100000000 < 0xFFFFFFFE ∨ 0xFFFFFFFE + 2 ≤ 0x100000000) := by
  decide

theorem witness_fourSamples : Holds 2 (memoryAt 0x1000 [1, 0, 2, 0, 3, 0, 4, 0x80]) 0x1000 [1, 2, 3, 0x8004] :=
  ⟨rfl, rfl, rfl, rfl, trivial⟩

/-- The first and the last bad length of each width. -/
theorem witness_partialSample : (1 : Addr).toNat % 8 ≠ 0 ∧ (0xFFFFFFFF : Addr).toNat % 8 ≠ 0 ∧
    (1 : Addr).toNat % 2 ≠ 0 ∧ (0xFFFFFFFF : Addr).toNat % 2 ≠ 0 := by decide

theorem witness_layoutError : ∃ (s t : State) (r : Response), exec (.fbufF 0 44) s = .next t ∧
    t.responses = s.responses ++ [r] ∧ r.stat ≠ .ok :=
  ⟨State.reset, _, ⟨.invalidBufferLayout, false, 0⟩, rfl, rfl, by decide⟩

/-- An admitted range, one that is not, and a bad length, of each width. -/
theorem witness_refused : (8 : Addr).toNat % 8 = 0 ∧ (8 : Addr).toNat % 2 = 0 ∧ (7 : Addr).toNat % 8 ≠ 0 ∧
    (7 : Addr).toNat % 2 ≠ 0 ∧ Admitted 8 (0x1000 : Addr).toNat (8 : Addr).toNat withBuffer.mem ∧
    ¬ Admitted 8 (0x1000 : Addr).toNat (8 : Addr).toNat State.reset.mem ∧
    ¬ Admitted 2 (0xFFFFFFFE : Addr).toNat (4 : Addr).toNat State.reset.mem :=
  ⟨by decide, by decide, by decide, by decide, buffer_admitted 8 8 (.inr rfl) (.inr rfl),
    fun h => absurd (h.2.2 0x1000 (by decide) (by decide)) (by decide), fun h => absurd h.2.1 (by decide)⟩

theorem witness_onlyFbufRefused : step (State.reset.launch [] [encode (.fbufF 0x1004 8)]) = .refused .misalignedBuffer ∧
    step (State.reset.launch [] [encode (.fbufX 0x2000 2)]) = .refused .unallocatedBuffer := ⟨rfl, rfl⟩

/-- The lowest and the highest aligned base. -/
theorem witness_emptyBuffer : (0 : Addr).toNat % 8 = 0 ∧ (0xFFFFFFF8 : Addr).toNat % 8 = 0 ∧
    (0xFFFFFFFE : Addr).toNat % 2 = 0 := by decide

/-- FBUF.X over the empty range, over a buffer, and over one that ends at 2^32. -/
theorem witness_fbufX : (0 : Addr).toNat % 2 = 0 ∧ Admitted 2 (0x1000 : Addr).toNat (0 : Addr).toNat withBuffer.mem ∧
    (8 : Addr).toNat % 2 = 0 ∧ Admitted 2 (0x1000 : Addr).toNat (8 : Addr).toNat withBuffer.mem ∧
    (16 : Addr).toNat % 2 = 0 ∧ Admitted 2 (0xFFFFFFF0 : Addr).toNat (16 : Addr).toNat withTopBuffer.mem ∧
    withBuffer.fixed.offs.toNat ≤ 1 :=
  ⟨by decide, buffer_admitted 2 0 (.inl rfl) (.inl rfl), by decide, buffer_admitted 2 8 (.inl rfl) (.inr rfl),
    by decide, topBuffer_admitted 2 (.inl rfl), by decide⟩

/-- FBUF.F over the empty range, over a buffer, and over one that ends at 2^32. -/
theorem witness_fbufF : (0 : Addr).toNat % 8 = 0 ∧ Admitted 8 (0x1000 : Addr).toNat (0 : Addr).toNat withBuffer.mem ∧
    (8 : Addr).toNat % 8 = 0 ∧ Admitted 8 (0x1000 : Addr).toNat (8 : Addr).toNat withBuffer.mem ∧
    (16 : Addr).toNat % 8 = 0 ∧ Admitted 8 (0xFFFFFFF0 : Addr).toNat (16 : Addr).toNat withTopBuffer.mem :=
  ⟨by decide, buffer_admitted 8 0 (.inr rfl) (.inl rfl), by decide, buffer_admitted 8 8 (.inr rfl) (.inr rfl),
    by decide, topBuffer_admitted 8 (.inr rfl)⟩

/-- Two halves of a buffer that ends at 2^32, and an empty second part. -/
theorem witness_split : (8 : Addr).toNat % 8 = 0 ∧ (8 : Addr).toNat % 2 = 0 ∧ (8 : Addr).toNat + (8 : Addr).toNat < 2 ^ 32 ∧
    Admitted 8 (0xFFFFFFF0 : Addr).toNat ((8 : Addr).toNat + (8 : Addr).toNat) withTopBuffer.mem ∧
    Admitted 2 (0xFFFFFFF0 : Addr).toNat ((8 : Addr).toNat + (8 : Addr).toNat) withTopBuffer.mem ∧
    (0 : Addr).toNat % 8 = 0 ∧ Admitted 8 (0xFFFFFFF0 : Addr).toNat ((16 : Addr).toNat + (0 : Addr).toNat) withTopBuffer.mem :=
  ⟨by decide, by decide, by decide, topBuffer_admitted 8 (.inr rfl), topBuffer_admitted 2 (.inl rfl), by decide,
    topBuffer_admitted 8 (.inr rfl)⟩

/-- An output buffer with no NaN in it. -/
theorem witness_noNaN : ∀ u ∈ [0, 0x3FF0000000000000], F64.isNaN (BitVec.ofNat 64 u) = false := by decide

theorem witness_invariant : ∃ s t : State, Inv s ∧ s.commands ≠ [] ∧ step s = .next t :=
  ⟨State.reset.launch [] [encode .rdsat], _, ⟨⟨by decide, by decide⟩, by decide⟩, by decide, rfl⟩

theorem witness_launchMemory : Memory.wf withBuffer.mem ∧ Memory.wf withTopBuffer.mem := by decide

theorem witness_allocatedSet : ∃ s t : State, s.mem ≠ [] ∧ s.commands ≠ [] ∧ step s = .next t :=
  ⟨State.reset.launch withBuffer.mem [encode .newengF], _, by decide, by decide, rfl⟩

/-- A byte just below the range and one just above it, for an FBUF that completes. -/
theorem witness_writesItsRange : (∃ t, exec (.fbufX 0x1000 8) withBuffer = .next t) ∧
    (0xFFF < (0x1000 : Addr).toNat ∨ (0x1000 : Addr).toNat + (8 : Addr).toNat ≤ 0xFFF) ∧
    (0x1008 < (0x1000 : Addr).toNat ∨ (0x1000 : Addr).toNat + (8 : Addr).toNat ≤ 0x1008) ∧
    (∃ t, exec .rdsat withBuffer = .next t) ∧
    (∀ base len : Addr, Instr.rdsat ≠ .fbufF base len ∧ Instr.rdsat ≠ .fbufX base len) := by
  refine ⟨?_, by decide, by decide, ⟨_, rfl⟩, fun _ _ => ⟨Instr.noConfusion, Instr.noConfusion⟩⟩
  have ha := buffer_admitted 2 8 (.inl rfl) (.inr rfl)
  obtain ⟨vs, hl, hv⟩ := ha.exists_holds (by decide)
  exact ⟨_, execFbufX_next (base := 0x1000) (len := 8) (by decide) ha hl hv⟩

/-- A command that changes the Float slot, and one that changes the Fixed slot. -/
theorem witness_slots : ∃ s t u : State, exec .newengF s = .next t ∧ t.float ≠ s.float ∧
    exec .newengX s = .next u ∧ u.fixed ≠ s.fixed := by
  refine ⟨{ State.reset with float := ⟨Vector.replicate 81 1⟩, fixed := ⟨Vector.replicate 81 0, 1, 0⟩ }, _, _, rfl, ?_,
    rfl, ?_⟩
  · intro h
    have := congrArg (fun f : FloatSlot Config.N => f.hf[0]) h
    exact absurd this (by decide)
  · intro h
    exact absurd (congrArg FixedSlot.offs h) (by decide)

theorem witness_paths : (Instr.procF 5 = .newengF ∨ ∃ v, Instr.procF 5 = .procF v) ∧
    (Instr.procX 5 = .newengX ∨ Instr.procX 5 = .rdsat ∨ ∃ v, Instr.procX 5 = .procX v) :=
  ⟨.inr ⟨_, rfl⟩, .inr (.inr ⟨_, rfl⟩)⟩

end Sys2Proof.Tests
end

section
/-! PROOFS. What the commands do to the state (spec/10_state.md R22 to R37): first the inversion of a completed
command, one constructor for each way to complete, then the invariant, the histories, the saturation counter, the
separation of the two slots, and the values of reset and construction. -/

namespace Sys2Proof.Machine

/-! ## Everything a completed command can have done -/

/-- The ways a command can complete, each with the state it leaves: one for every command that touches no memory (R120,
R121, R140, R141, R156), and for either FBUF the layout error (R171) and the whole element loop (R170, R173). -/
inductive Completes (s : State) : Instr → State → Prop where
  | newengF : Completes s .newengF (respondOk false 0 { s with float := FloatSlot.constructed Config.N })
  | newengX : Completes s .newengX (respondOk false 0 { s with fixed := FixedSlot.constructed Config.N })
  | procF (x : F64) : Completes s (.procF x) (respondOk false (resFloat (stepF hw (s.float, s.nanDraws) x).2)
      { s with
        float := (stepF hw (s.float, s.nanDraws) x).1.1
        nanDraws := (stepF hw (s.float, s.nanDraws) x).1.2 })
  | procX (x : Sample16) : Completes s (.procX x)
      (respondOk (stepX hw s.fixed x).event (resFixed (stepX hw s.fixed x).y)
        { s with fixed := (stepX hw s.fixed x).slot })
  | rdsat : Completes s .rdsat (respondOk false (resCount s.fixed.satcnt) s)
  | layoutF {base len : Addr} (hlen : len.toNat % 8 ≠ 0) :
      Completes s (.fbufF base len) (respond ⟨.invalidBufferLayout, false, 0⟩ s)
  | layoutX {base len : Addr} (hlen : len.toNat % 2 ≠ 0) :
      Completes s (.fbufX base len) (respond ⟨.invalidBufferLayout, false, 0⟩ s)
  | fbufF {base len : Addr} {vs : List Nat} (hlen : len.toNat % 8 = 0)
      (hadm : Admitted 8 base.toNat len.toNat s.mem) (hl : vs.length = len.toNat / 8)
      (hv : Holds 8 s.mem base.toNat vs) :
      Completes s (.fbufF base len) (respondOk false 0
        { s with
          float := (foldElements (elementF hw) (s.float, s.nanDraws) vs).1.1
          nanDraws := (foldElements (elementF hw) (s.float, s.nanDraws) vs).1.2
          mem := writeAll 8 s.mem base.toNat (foldElements (elementF hw) (s.float, s.nanDraws) vs).2 })
  | fbufX {base len : Addr} {vs : List Nat} (hlen : len.toNat % 2 = 0)
      (hadm : Admitted 2 base.toNat len.toNat s.mem) (hl : vs.length = len.toNat / 2)
      (hv : Holds 2 s.mem base.toNat vs) :
      Completes s (.fbufX base len) (respondOk (foldElements (elementX hw) (s.fixed, false) vs).1.2 0
        { s with
          fixed := (foldElements (elementX hw) (s.fixed, false) vs).1.1
          mem := writeAll 2 s.mem base.toNat (foldElements (elementX hw) (s.fixed, false) vs).2 })

/-- A command answers a next state in exactly the ways `Completes` lists. -/
theorem exec_eq_next_iff {i : Instr} {s t : State} : exec i s = .next t ↔ Completes s i t := by
  constructor
  · intro h
    cases i with
    | newengF => cases h; exact .newengF
    | newengX => cases h; exact .newengX
    | procF x => cases h; exact .procF x
    | procX x => cases h; exact .procX x
    | rdsat => cases h; exact .rdsat
    | fbufF base len =>
      rw [exec] at h
      rcases execFbufF_cases base len s with ⟨hlen, e⟩ | ⟨-, -, r, e⟩ | ⟨hlen, hadm, vs, hl, hv, e⟩ <;>
        rw [e] at h <;> cases h
      · exact .layoutF hlen
      · exact .fbufF hlen hadm hl hv
    | fbufX base len =>
      rw [exec] at h
      rcases execFbufX_cases base len s with ⟨hlen, e⟩ | ⟨-, -, r, e⟩ | ⟨hlen, hadm, vs, hl, hv, e⟩ <;>
        rw [e] at h <;> cases h
      · exact .layoutX hlen
      · exact .fbufX hlen hadm hl hv
  · intro h
    cases h with
    | newengF | newengX | procF x | procX x | rdsat => rfl
    | layoutF hlen | layoutX hlen => exact streamBuffer_layout hlen
    | fbufF hlen hadm hl hv => exact execFbufF_next hlen hadm hl hv
    | fbufX hlen hadm hl hv => exact execFbufX_next hlen hadm hl hv

/-! ## One engine step and a fold of them -/

@[simp] theorem stepF_hf {n : Nat} (p : Params n) (st : FloatSlot n × Nat) (x : F64) :
    (stepF p st x).1.1.hf = shiftIn st.1.hf x := rfl

@[simp] theorem stepX_hx {n : Nat} (p : Params n) (slot : FixedSlot n) (x : Sample16) :
    (stepX p slot x).slot.hx = shiftIn slot.hx x := rfl

@[simp] theorem stepX_offs {n : Nat} (p : Params n) (slot : FixedSlot n) (x : Sample16) :
    (stepX p slot x).slot.offs = p.rnd.next slot.offs := rfl

@[simp] theorem hw_rnd : hw.rnd = Rnd.alt := rfl

/-- A step of this hardware keeps the offset one of the two values of `ALT` (R147). -/
theorem stepX_offs_le_one {slot : FixedSlot Config.N} (x : Sample16) (h : slot.offs.toNat ≤ 1) :
    (stepX hw slot x).slot.offs.toNat ≤ 1 := by
  rw [stepX_offs, hw_rnd, alt_next_toNat h]
  exact Nat.sub_le ..

/-- Counting an event never lowers the counter (R25). -/
theorem countEvent_ge (event : Bool) (c : BitVec 32) : c.toNat ≤ (countEvent event c).toNat := by
  have := c.isLt
  rw [countEvent_toNat]
  split <;> omega

/-- A step never lowers the saturation counter (R25, R150). -/
theorem stepX_satcnt_ge {n : Nat} (p : Params n) (slot : FixedSlot n) (x : Sample16) :
    slot.satcnt.toNat ≤ (stepX p slot x).slot.satcnt.toNat := countEvent_ge _ _

/-- What every step keeps, the fold over a buffer keeps. -/
theorem foldElements_keeps {σ : Type} {step : σ → Nat → σ × Nat} {P : σ → Prop}
    (hstep : ∀ st v, P st → P (step st v).1) {st : σ} (vs : List Nat) (h : P st) :
    P (foldElements step st vs).1 := by
  induction vs generalizing st with
  | nil => exact h
  | cons v vs ih => exact ih (hstep st v h)

/-! ## The invariant -/

/-- The outputs of an FBUF, written over its admitted range, keep memory in canonical form (R50, R54). -/
theorem Admitted.writeAll_wf {σ : Type} {w base len : Nat} {m : Memory} {step : σ → Nat → σ × Nat} {st : σ}
    {vs : List Nat} (hadm : Admitted w base len m) (hlen : len % w = 0) (hl : vs.length = len / w) (hm : m.wf) :
    (writeAll w m base (foldElements step st vs).2).wf := by
  obtain ⟨-, hrange, -⟩ := hadm
  refine Machine.writeAll_wf hm ?_
  rwa [foldElements_length, hl, Nat.div_mul_cancel (Nat.dvd_of_mod_eq_zero hlen)]

/-- Every completed command keeps memory in canonical form and the offset 0 or 1. -/
theorem Completes.inv {s t : State} {i : Instr} (h : Completes s i t) (hs : Inv s) : Inv t := by
  obtain ⟨hm, ho⟩ := hs
  cases h with
  | newengF | procF | rdsat | layoutF | layoutX => exact ⟨hm, ho⟩
  | newengX => exact ⟨hm, Nat.zero_le 1⟩
  | procX x => exact ⟨hm, stepX_offs_le_one x ho⟩
  | fbufF hlen hadm hl => exact ⟨hadm.writeAll_wf hlen hl hm, ho⟩
  | fbufX hlen hadm hl =>
    exact ⟨hadm.writeAll_wf hlen hl hm, foldElements_keeps (P := fun st : FixedSlot _ × Bool => st.1.offs.toNat ≤ 1)
      (fun _ v => stepX_offs_le_one (sample16Of v)) _ ho⟩

/-- Settles O45, by the inversion of a step: an idle step and an illegal packet leave memory and offset, and a decoded
command is one of the ways to complete. -/
theorem stepKeepsTheInvariant : Obligations.StepKeepsTheInvariant := by
  intro s t hs h
  rcases step_cases s with ⟨-, e⟩ | ⟨cp, rest, -, -, e⟩ | ⟨cp, rest, i, -, -, e⟩ <;> rw [e] at h
  · cases h; exact hs
  · cases h; exact hs
  · exact (exec_eq_next_iff.1 h).inv hs

/-- Settles O46: no address is listed after reset, the offset is 0, and a launch sets only memory and the ports. -/
theorem resetMeetsTheInvariant : Obligations.ResetMeetsTheInvariant :=
  have offs : State.reset.fixed.offs.toNat ≤ 1 := Nat.zero_le 1
  ⟨⟨⟨.nil, fun _ hc => absurd hc List.not_mem_nil⟩, offs⟩, fun _ _ hm => ⟨hm, offs⟩⟩

/-! ## The histories -/

/-- A run of commands whose first one completes goes on from the state that leaves. -/
theorem execAll_cons {i : Instr} {s t : State} (h : exec i s = .next t) (is : List Instr) :
    execAll (i :: is) s = execAll is t := by
  rw [execAll, h]

/-- A stream of commands that each complete and change a part of the state by `shift` completes, and folds `shift` over
its samples. -/
theorem execAll_map_foldl {α β : Type} {cmd : α → Instr} {part : State → β} {shift : β → α → β}
    (hcmd : ∀ x s, ∃ t, exec (cmd x) s = .next t ∧ part t = shift (part s) x) (xs : List α) (s : State) :
    ∃ t, execAll (xs.map cmd) s = .next t ∧ part t = xs.foldl shift (part s) := by
  induction xs generalizing s with
  | nil => exact ⟨s, rfl, rfl⟩
  | cons x xs ih =>
    obtain ⟨u, hu, hpu⟩ := hcmd x s
    obtain ⟨t, ht, hpt⟩ := ih u
    exact ⟨t, (execAll_cons hu _).trans ht, by rw [List.foldl_cons, ← hpu]; exact hpt⟩

/-- A stream of PROC.F leaves the last 81 of the old history and the samples (R22, R122). -/
theorem execAll_procF_history (xs : List F64) (s : State) : ∃ t, execAll (xs.map .procF) s = .next t ∧
    t.float.hf.toList = (s.float.hf.toList ++ xs).drop xs.length := by
  obtain ⟨t, ht, hhf⟩ := execAll_map_foldl (part := fun s => s.float.hf) (shift := shiftIn)
    (fun x s => ⟨_, exec_eq_next_iff.2 (.procF x), stepF_hf hw ..⟩) xs s
  exact ⟨t, ht, by rw [hhf, foldl_shiftIn_toList]⟩

/-- A stream of PROC.X leaves the last 81 of the old history and the samples (R23, R142). -/
theorem execAll_procX_history (xs : List Sample16) (s : State) : ∃ t, execAll (xs.map .procX) s = .next t ∧
    t.fixed.hx.toList = (s.fixed.hx.toList ++ xs).drop xs.length := by
  obtain ⟨t, ht, hhx⟩ := execAll_map_foldl (part := fun s => s.fixed.hx) (shift := shiftIn)
    (fun x s => ⟨_, exec_eq_next_iff.2 (.procX x), stepX_hx hw ..⟩) xs s
  exact ⟨t, ht, by rw [hhx, foldl_shiftIn_toList]⟩

/-- A constructed line after at most as many samples as it has entries: the zeros left, then the samples (R130, R154). -/
theorem drop_replicate_append {α : Type} (a : α) {k : Nat} {xs : List α} (h : xs.length ≤ k) :
    (List.replicate k a ++ xs).drop xs.length = List.replicate (k - xs.length) a ++ xs := by
  rw [List.drop_append_of_le_length (by rwa [List.length_replicate]), List.drop_replicate]

/-- Settles O21: a stream of one path folds the shift over that path's line, and a constructed line is all zeros. -/
theorem historyIsTheLastSamples : Obligations.HistoryIsTheLastSamples := by
  refine ⟨execAll_procF_history, execAll_procX_history, fun xs s hxs => ?_, fun xs s hxs => ?_⟩
  · obtain ⟨t, ht, hhf⟩ := execAll_procF_history xs
      (respondOk false 0 { s with float := FloatSlot.constructed Config.N })
    refine ⟨t, (execAll_cons (exec_eq_next_iff.2 .newengF) _).trans ht, hhf.trans ?_⟩
    rw [respondOk_float, FloatSlot.constructed, Vector.toList_replicate, drop_replicate_append 0 hxs]
  · obtain ⟨t, ht, hhx⟩ := execAll_procX_history xs
      (respondOk false 0 { s with fixed := FixedSlot.constructed Config.N })
    refine ⟨t, (execAll_cons (exec_eq_next_iff.2 .newengX) _).trans ht, hhx.trans ?_⟩
    rw [respondOk_fixed, FixedSlot.constructed, Vector.toList_replicate, drop_replicate_append 0 hxs]

/-! ## The saturation counter -/

/-- No completed command but NEWENG.X lowers the saturation counter. -/
theorem Completes.satcnt_ge {s t : State} {i : Instr} (h : Completes s i t) (hi : i ≠ .newengX) :
    s.fixed.satcnt.toNat ≤ t.fixed.satcnt.toNat := by
  cases h with
  | newengF | procF | rdsat | layoutF | layoutX | fbufF => exact le_rfl
  | newengX => exact absurd rfl hi
  | procX x => exact stepX_satcnt_ge ..
  | fbufX =>
    exact foldElements_keeps (P := fun st : FixedSlot _ × Bool => s.fixed.satcnt.toNat ≤ st.1.satcnt.toNat)
      (fun _ _ hst => hst.trans (stepX_satcnt_ge ..)) _ le_rfl

/-- Settles O32: the counter is not lowered, and 32 bits hold nothing above 2^32 - 1. -/
theorem saturationCounterSticks : Obligations.SaturationCounterSticks := by
  intro i s t h hi
  have hge := (exec_eq_next_iff.1 h).satcnt_ge hi
  have hlt := t.fixed.satcnt.isLt
  exact ⟨hge, fun _ => by omega⟩

/-! ## The two slots -/

/-- A completed command leaves the Float slot, or is one of the float path. -/
theorem Completes.float_eq_or {s t : State} {i : Instr} (h : Completes s i t) :
    t.float = s.float ∨ i = .newengF ∨ (∃ x, i = .procF x) ∨ ∃ base len, i = .fbufF base len := by
  cases h with
  | newengX | procX | rdsat | layoutF | layoutX | fbufX => exact .inl rfl
  | newengF => exact .inr (.inl rfl)
  | procF x => exact .inr (.inr (.inl ⟨x, rfl⟩))
  | fbufF => exact .inr (.inr (.inr ⟨_, _, rfl⟩))

/-- A completed command leaves the Fixed slot, or is one of the fixed path that can write it. -/
theorem Completes.fixed_eq_or {s t : State} {i : Instr} (h : Completes s i t) :
    t.fixed = s.fixed ∨ i = .newengX ∨ (∃ x, i = .procX x) ∨ ∃ base len, i = .fbufX base len := by
  cases h with
  | newengF | procF | rdsat | layoutF | layoutX | fbufF => exact .inl rfl
  | newengX => exact .inr (.inl rfl)
  | procX x => exact .inr (.inr (.inl ⟨x, rfl⟩))
  | fbufX => exact .inr (.inr (.inr ⟨_, _, rfl⟩))

/-- Settles O49, by what each way to complete leaves of either slot. -/
theorem slotsAreWrittenByTheirOwnPathOnly : Obligations.SlotsAreWrittenByTheirOwnPathOnly :=
  fun _ _ _ h => ⟨(exec_eq_next_iff.1 h).float_eq_or.resolve_left, (exec_eq_next_iff.1 h).fixed_eq_or.resolve_left⟩

/-- A float command that touches no memory is a function of the Float slot and the NaN draws, and writes only these and
its response (R31). -/
theorem exec_float_local {f : Instr} (hf : f = .newengF ∨ ∃ v, f = .procF v) :
    ∃ (slot : FloatSlot Config.N × Nat → FloatSlot Config.N × Nat) (res : FloatSlot Config.N × Nat → BitVec 64),
      ∀ s, exec f s = .next (respondOk false (res (s.float, s.nanDraws))
        { s with float := (slot (s.float, s.nanDraws)).1, nanDraws := (slot (s.float, s.nanDraws)).2 }) := by
  rcases hf with rfl | ⟨v, rfl⟩
  · exact ⟨fun st => (FloatSlot.constructed Config.N, st.2), fun _ => 0, fun _ => rfl⟩
  · exact ⟨fun st => (stepF hw st v).1, fun st => resFloat (stepF hw st v).2, fun _ => rfl⟩

/-- A fixed command that touches no memory is a function of the Fixed slot, and writes only it and its response (R31). -/
theorem exec_fixed_local {x : Instr} (hx : x = .newengX ∨ x = .rdsat ∨ ∃ v, x = .procX v) :
    ∃ (slot : FixedSlot Config.N → FixedSlot Config.N) (satf : FixedSlot Config.N → Bool)
      (res : FixedSlot Config.N → BitVec 64),
      ∀ s, exec x s = .next (respondOk (satf s.fixed) (res s.fixed) { s with fixed := slot s.fixed }) := by
  rcases hx with rfl | rfl | ⟨v, rfl⟩
  · exact ⟨fun _ => FixedSlot.constructed Config.N, fun _ => false, fun _ => 0, fun _ => rfl⟩
  · exact ⟨id, fun _ => false, fun slot => resCount slot.satcnt, fun _ => rfl⟩
  · exact ⟨fun slot => (stepX hw slot v).slot, fun slot => (stepX hw slot v).event,
      fun slot => resFixed (stepX hw slot v).y, fun _ => rfl⟩

/-- Settles O50: either command reads and writes its own slot, which the other leaves. -/
theorem pathsDoNotInterfere : Obligations.PathsDoNotInterfere := by
  intro f x s hf hx
  obtain ⟨slotF, resF, hexF⟩ := exec_float_local hf
  obtain ⟨slotX, satfX, resX, hexX⟩ := exec_fixed_local hx
  refine ⟨_, _, ⟨.ok, false, resF (s.float, s.nanDraws)⟩, ⟨.ok, satfX s.fixed, resX s.fixed⟩,
    (execAll_cons (hexF s) _).trans (execAll_cons (hexX _) _),
    (execAll_cons (hexX s) _).trans (execAll_cons (hexF _) _), ?_, ?_, rfl, rfl, rfl⟩
  · simp
  · simp

/-! ## Reset and construction -/

@[simp] theorem FloatSlot.constructed_hf_getElem {n i : Nat} (h : i < n + 1) : (FloatSlot.constructed n).hf[i] = 0 :=
  Vector.getElem_replicate h

@[simp] theorem FixedSlot.constructed_hx_getElem {n i : Nat} (h : i < n + 1) : (FixedSlot.constructed n).hx[i] = 0 :=
  Vector.getElem_replicate h

/-- Settles O9: hardware reset, the reset state and the two construction commands all put constructed slots in place, and
these are zero. -/
theorem resetAndConstructionValues : Obligations.ResetAndConstructionValues :=
  have hf (i) (h : i < Config.N + 1) := FloatSlot.constructed_hf_getElem h
  have hx (i) (h : i < Config.N + 1) := FixedSlot.constructed_hx_getElem h
  ⟨fun _ => ⟨hf, hx, rfl, rfl, rfl⟩, hf, hx, rfl, rfl,
    fun _ => ⟨_, exec_eq_next_iff.2 .newengF, hf, rfl, rfl⟩,
    fun _ => ⟨_, exec_eq_next_iff.2 .newengX, hx, rfl, rfl, rfl, rfl⟩⟩

end Sys2Proof.Machine
end

section
/-! PROOFS. Buffer memory (spec/20_memory.md R50 to R66): the number a read gives, from its bytes and from its elements;
when an FBUF is refused; and what a completed command writes to memory, from which its range and the allocated set
follow. -/

namespace Sys2Proof.Machine

/-! ## The number a read gives -/

/-- A read is the sum of its bytes by their weights, the lowest address least significant (R52). -/
theorem Memory.read_eq_sum {m : Memory} {a n : Nat} {f : Nat → Byte} (h : ∀ j, j < n → m.byte (a + j) = some (f j)) :
    m.read a n = some (∑ j ∈ Finset.range n, (f j).toNat * 256 ^ j) := by
  induction n generalizing a f with
  | zero => rfl
  | succ n ih =>
    have htail : m.read (a + 1) n = some (∑ j ∈ Finset.range n, (f (j + 1)).toNat * 256 ^ j) :=
      ih fun j hj => by rw [← h (j + 1) (by omega)]; congr 1; omega
    have hshift (j : Nat) : 256 * ((f (j + 1)).toNat * 256 ^ j) = (f (j + 1)).toNat * 256 ^ (j + 1) := by ring
    have hhead : m.byte a = some (f 0) := h 0 (by omega)
    rw [Memory.read, hhead, htail, Finset.sum_range_succ', pow_zero, mul_one, add_comm]
    simp only [Finset.mul_sum, hshift]

/-- Settles O33: the sum by induction on the width, the rest by the byte and the read after a write. -/
theorem memoryIsLittleEndian : Obligations.MemoryIsLittleEndian := by
  intro m a n v
  have hweight (j : Nat) : 2 ^ (8 * j) = 256 ^ j := pow_mul 2 8 j
  simp only [hweight]
  refine ⟨fun f hf => Memory.read_eq_sum hf, fun j hj => ?_, fun x hx => ?_, fun hv => ?_⟩
  · rw [Memory.byte_write, if_pos (by omega), Nat.add_sub_cancel_left]
  · rw [Memory.byte_write, if_neg (by omega)]
  · rw [Memory.read_write_same, Nat.mod_eq_of_lt hv]

/-- One read over consecutive elements is the number whose digits they are, the first least significant (R52, R66). -/
theorem Holds.read_eq_ofDigits {w : Nat} {m : Memory} {a : Nat} {vs : List Nat} (h : Holds w m a vs) :
    m.read a (vs.length * w) = some (Nat.ofDigits (256 ^ w) vs) := by
  induction vs generalizing a with
  | nil => simp [Memory.read]
  | cons v vs ih =>
    rw [List.length_cons, Nat.succ_mul, add_comm, Memory.read_add h.1 (ih h.2), Nat.ofDigits_cons]

/-- Sixteen bits of a float pattern read from memory (R53). -/
theorem f64of_slice_toNat {v : Nat} (hv : v < 2 ^ 64) (k : Nat) :
    ((f64of v).extractLsb' k 16).toNat = v / 2 ^ k % 2 ^ 16 := by
  rw [BitVec.extractLsb'_toNat, f64of, BitVec.toNat_ofNat, Nat.mod_eq_of_lt hv, Nat.shiftRight_eq_div_pow]

/-- Settles O34: the read has the samples as its base 2^16 digits, and each of them fits 16 bits. -/
theorem fourFixedSamplesAreOneFloatPattern : Obligations.FourFixedSamplesAreOneFloatPattern := by
  intro m a v0 v1 v2 v3 h
  have hread : m.read a 8 = some (v0 + 2 ^ 16 * v1 + 2 ^ 32 * v2 + 2 ^ 48 * v3) := by
    refine h.read_eq_ofDigits.trans (congrArg some ?_)
    simp only [Nat.ofDigits_cons, Nat.ofDigits_nil]
    omega
  obtain ⟨h0, h1, h2, -, -⟩ := h
  have hv := Memory.read_lt hread
  have hv0 := Memory.read_lt h0
  have hv1 := Memory.read_lt h1
  have hv2 := Memory.read_lt h2
  refine ⟨_, hread, rfl, ?_, ?_⟩
  · rw [f64of_slice_toNat hv]
    omega
  · rw [f64of_slice_toNat hv]
    omega

/-! ## When an FBUF is refused -/

section streamBuffer
variable {σ : Type} {w : Nat} {step : σ → Nat → σ × Nat} {st : σ} {finish : σ → Memory → State} {base len : Addr} {s : State}

/-- With a good length an FBUF of either path is refused exactly when its range is not admitted (R54). -/
theorem streamBuffer_isRefused_iff (hlen : len.toNat % w = 0) :
    IsRefused (streamBuffer w step st finish base len s) ↔ ¬ Admitted w base.toNat len.toNat s.mem := by
  constructor
  · rintro ⟨r, hr⟩ hadm
    obtain ⟨vs, hl, hv⟩ := hadm.exists_holds hlen
    rw [streamBuffer_next hlen hadm hl hv] at hr
    cases hr
  · intro hadm
    obtain ⟨r, -, hr⟩ := streamBuffer_refused hlen hadm
    exact ⟨r, hr⟩

/-- With a bad length an FBUF of either path is answered (R171, R195). -/
theorem streamBuffer_isNext (hlen : len.toNat % w ≠ 0) : IsNext (streamBuffer w step st finish base len s) :=
  ⟨_, streamBuffer_layout hlen⟩

end streamBuffer

/-- Settles O37: both paths are the one element loop, at widths 8 and 2. -/
theorem fbufRefusedExactlyWhenNotAdmitted : Obligations.FbufRefusedExactlyWhenNotAdmitted :=
  fun _ _ _ => ⟨streamBuffer_isRefused_iff, streamBuffer_isRefused_iff, streamBuffer_isNext, streamBuffer_isNext⟩

/-! ## What a completed command writes to memory -/

/-- `m'` is `m` with the elements of the range `base .. base+len-1` replaced: what an FBUF writes (R170, R173). -/
def ElementsReplaced (base len : Nat) (m m' : Memory) : Prop :=
  ∃ (w : Nat) (old new : List Nat),
    Holds w m base old ∧ new.length = old.length ∧ old.length * w = len ∧ m' = writeAll w m base new

/-- Replacing elements allocates nothing and frees nothing (R54, R56). -/
theorem ElementsReplaced.isSome_byte {base len : Nat} {m m' : Memory} (h : ElementsReplaced base len m m') (a : Nat) :
    (m'.byte a).isSome = (m.byte a).isSome := by
  obtain ⟨w, old, new, hold, hnew, -, rfl⟩ := h
  exact isSome_byte_writeAll hnew hold a

/-- Replacing elements leaves every byte outside the range (R65). -/
theorem ElementsReplaced.byte_outside {base len a : Nat} {m m' : Memory} (h : ElementsReplaced base len m m')
    (ha : a < base ∨ base + len ≤ a) : m'.byte a = m.byte a := by
  obtain ⟨w, old, new, -, hnew, rfl, rfl⟩ := h
  exact byte_writeAll (by rwa [hnew])

/-- The outputs of an FBUF over the elements of its range replace them. -/
theorem Holds.elementsReplaced {σ : Type} {w base len : Nat} {m : Memory} {step : σ → Nat → σ × Nat} {st : σ}
    {vs : List Nat} (hv : Holds w m base vs) (hlen : len % w = 0) (hl : vs.length = len / w) :
    ElementsReplaced base len m (writeAll w m base (foldElements step st vs).2) :=
  ⟨w, vs, _, hv, foldElements_length .., by rw [hl, Nat.div_mul_cancel (Nat.dvd_of_mod_eq_zero hlen)], rfl⟩

/-- A completed command leaves memory, or is an FBUF and replaces the elements of its range. -/
theorem Completes.mem_eq_or {s t : State} {i : Instr} (h : Completes s i t) :
    t.mem = s.mem ∨ ∃ base len : Addr, (i = .fbufF base len ∨ i = .fbufX base len) ∧
      ElementsReplaced base.toNat len.toNat s.mem t.mem := by
  cases h with
  | newengF | newengX | procF | procX | rdsat | layoutF | layoutX => exact .inl rfl
  | fbufF hlen _ hl hv => exact .inr ⟨_, _, .inl rfl, hv.elementsReplaced hlen hl⟩
  | fbufX hlen _ hl hv => exact .inr ⟨_, _, .inr rfl, hv.elementsReplaced hlen hl⟩

/-- Every completed command keeps the set of allocated addresses. -/
theorem Completes.isSome_byte {s t : State} {i : Instr} (h : Completes s i t) (a : Nat) :
    (t.mem.byte a).isSome = (s.mem.byte a).isSome := by
  rcases h.mem_eq_or with hmem | ⟨base, len, -, hrep⟩
  · rw [hmem]
  · exact hrep.isSome_byte a

/-- Settles O47, by the inversion of a step: an idle step and an illegal packet leave memory, and a decoded command is one
of the ways to complete. -/
theorem stepKeepsTheAllocatedSet : Obligations.StepKeepsTheAllocatedSet := by
  intro s t h a
  rcases step_cases s with ⟨-, e⟩ | ⟨cp, rest, -, -, e⟩ | ⟨cp, rest, i, -, -, e⟩ <;> rw [e] at h
  · cases h; rfl
  · cases h; rfl
  · exact (exec_eq_next_iff.1 h).isSome_byte a

/-- Settles O48: only an FBUF does not leave memory, and it replaces elements of its own range. -/
theorem onlyFbufWritesItsRange : Obligations.OnlyFbufWritesItsRange := by
  intro i s t h
  rcases (exec_eq_next_iff.1 h).mem_eq_or with hmem | ⟨base, len, hi, hrep⟩
  · exact ⟨fun _ => hmem, fun _ _ _ _ _ => by rw [hmem]⟩
  · refine ⟨fun hne => ?_, fun base' len' a hi' ha => ?_⟩
    · obtain ⟨hF, hX⟩ := hne base len
      exact absurd hi (not_or.2 ⟨hF, hX⟩)
    · obtain ⟨rfl, rfl⟩ : base = base' ∧ len = len' := by
        rcases hi with rfl | rfl <;> simpa using hi'
      exact hrep.byte_outside ha

end Sys2Proof.Machine
end

section
/-! PROOFS. The packets (spec/30_encoding.md R71 to R77): what the decoder answers on a packet given by its two words,
from which it is inverse to the encoder, and which packets it rejects. -/

namespace Sys2Proof

/-- A packet is the encoding of a command exactly when its two words are the command's (R71). -/
theorem encode_eq_iff {i : Instr} {cp : Packet} : encode i = cp ↔ cp.cw = i.commandWord ∧ cp.opd = i.operand := by
  constructor
  · rintro rfl
    exact ⟨encode_cw i, encode_opd i⟩
  · rintro ⟨hcw, hopd⟩
    rw [Packet.eq_append cp, hcw, hopd, encode]

/-- A command decodes from its packet with every operand bit (R74, R76). -/
theorem decode_encode (i : Instr) : decode (encode i) = some i := by
  unfold decode
  rw [encode_cw, encode_opd]
  cases i with
  | newengF | newengX | procF | rdsat => rfl
  | procX sample => simp [Instr.commandWord, Instr.operand, append_high 0#48 sample, append_low 0#48 sample]
  | fbufF base len | fbufX base len =>
    simp [Instr.commandWord, Instr.operand, append_high len base, append_low len base]

/-- The two words of a packet that decodes are those of its command (R73, R74, R76). -/
theorem words_of_decode {cp : Packet} {i : Instr} (h : decode cp = some i) :
    cp.cw = i.commandWord ∧ cp.opd = i.operand := by
  unfold decode at h
  split_ifs at h with hcw hopd hcw hopd hcw hcw hopd hcw hcw hcw hopd <;> cases h
  · exact ⟨hcw, hopd⟩
  · exact ⟨hcw, hopd⟩
  · exact ⟨hcw, rfl⟩
  · refine ⟨hcw, ?_⟩
    rw [Instr.operand, ← hopd]
    exact (append_split (a := 48) (b := 16) cp.opd).symm
  · exact ⟨hcw, (append_split (a := 32) (b := 32) cp.opd).symm⟩
  · exact ⟨hcw, (append_split (a := 32) (b := 32) cp.opd).symm⟩
  · exact ⟨hcw, hopd⟩

/-- Settles O2: the decoder answers a command exactly on the two words of that command. -/
theorem decodeIffEncode : Obligations.DecodeIffEncode := by
  refine fun cp i => ⟨fun h => encode_eq_iff.2 (words_of_decode h), ?_⟩
  rintro rfl
  exact decode_encode i

/-- Settles O1, by running the decoder and the packet format on the values R83 prints. -/
theorem workedPacketsAsPrinted : Obligations.WorkedPacketsAsPrinted := by
  unfold Obligations.WorkedPacketsAsPrinted
  decide

/-! ## The packets that do not decode -/

theorem Packet.cw_toNat (cp : Packet) : cp.cw.toNat = cp.toNat / 2 ^ 64 := by
  have := cp.isLt
  rw [Packet.cw, BitVec.extractLsb'_toNat, Nat.shiftRight_eq_div_pow]
  omega

theorem Packet.opd_toNat (cp : Packet) : cp.opd.toNat = cp.toNat % 2 ^ 64 := by
  rw [Packet.opd, BitVec.extractLsb'_toNat, Nat.shiftRight_zero]

/-- The bits above the low 16 of an operand are zero exactly when it is a 16-bit number. -/
theorem extract_above16_eq_zero_iff (d : BitVec 64) : d.extractLsb' 16 48 = 0 ↔ d.toNat < 2 ^ 16 := by
  have := d.isLt
  rw [← BitVec.toNat_inj, BitVec.extractLsb'_toNat, Nat.shiftRight_eq_div_pow, BitVec.ofNat_eq_ofNat,
    BitVec.toNat_zero]
  omega

/-- The decoder rejects a packet exactly when its command word is none of the seven, or its operand is not one that the
command word allows (R74, R76). -/
theorem decode_eq_none_iff (cp : Packet) : decode cp = none ↔
    (cp.cw.toNat = 0x10000000 ∨ cp.cw.toNat = 0x18000000 ∨ cp.cw.toNat = 0x48000000 → cp.opd.toNat ≠ 0) ∧
    (cp.cw.toNat = 0x28000000 → 2 ^ 16 ≤ cp.opd.toNat) ∧
    cp.cw.toNat ≠ 0x20000000 ∧ cp.cw.toNat ≠ 0x30000000 ∧ cp.cw.toNat ≠ 0x38000000 := by
  simp only [decode, extract_above16_eq_zero_iff]
  simp only [← BitVec.toNat_inj, BitVec.ofNat_eq_ofNat, BitVec.toNat_ofNat]
  split_ifs <;> simp only [true_iff, false_iff] <;> omega

/-- Settles O3: the seven command words and the operands they allow, in the numbers of the fields. -/
theorem illegalPacketsAreTheNamedOnes : Obligations.IllegalPacketsAreTheNamedOnes := by
  intro cp
  have := cp.isLt
  dsimp only
  rw [decode_eq_none_iff, Packet.cw_toNat, Packet.opd_toNat]
  omega

end Sys2Proof
end

section
/-! PROOFS. A step at the ports (spec/30_encoding.md R70 to R72): the packet it takes and the response it gives, the
format of a response, and the run of a list of encoded commands. -/

namespace Sys2Proof.Machine

/-! ## The packet taken and the response given -/

/-- The operand types hold exactly R74's ranges, so every command is well formed. -/
@[simp] theorem wellFormed_eq_true (i : Instr) : i.wellFormed = true := by
  cases i <;> rfl

/-- Settles O5: the step accepts the packet and runs what it decodes to. -/
theorem stepRunsTheDecodedCommand : Obligations.StepRunsTheDecodedCommand := by
  intro s cp rest i hc hd _
  simp only [step, acceptCommand_cons hc, runPacket, hd]

/-- What R72 lets a response carry when its packet decodes to `i`, or to nothing: no result with an error, and `SATF`
only from PROC.X or FBUF.X without an error. -/
def Response.AllowedFor (r : Response) (i : Option Instr) : Prop :=
  (r.stat ≠ .ok → r.res = 0) ∧
  (r.satf = true → r.stat = .ok ∧ ((∃ x, i = some (.procX x)) ∨ ∃ base len, i = some (.fbufX base len)))

/-- A completed command appends one response, which R72 allows it. -/
theorem Completes.response {s t : State} {i : Instr} (h : Completes s i t) :
    ∃ r, t.responses = s.responses ++ [r] ∧ r.AllowedFor (some i) := by
  cases h with
  | newengF | newengX | procF | rdsat | fbufF => exact ⟨_, rfl, by simp [Response.AllowedFor]⟩
  | layoutF | layoutX => exact ⟨_, rfl, by simp [Response.AllowedFor]⟩
  | procX | fbufX => exact ⟨_, rfl, by simp [Response.AllowedFor]⟩

/-- A step with a packet at the port consumes it and appends one response, which R72 allows what it decodes to. -/
theorem step_response {s t : State} (hne : s.commands ≠ []) (h : step s = .next t) :
    ∃ cp r, s.commands = cp :: t.commands ∧ t.responses = s.responses ++ [r] ∧ r.AllowedFor (decode cp) := by
  rcases step_cases s with ⟨hc, -⟩ | ⟨cp, rest, hc, hd, e⟩ | ⟨cp, rest, i, hc, hd, e⟩
  · exact absurd hc hne
  · rw [e] at h
    cases h
    exact ⟨cp, _, hc, rfl, by simp [Response.AllowedFor]⟩
  · have hexec := e.symm.trans h
    obtain ⟨r, hr, hallowed⟩ := (exec_eq_next_iff.1 hexec).response
    exact ⟨cp, r, (exec_frame hexec).1 ▸ hc, hr, hd ▸ hallowed⟩

/-- Settles O7: the packet and the response of a step. -/
theorem oneResponsePerCommand : Obligations.OneResponsePerCommand := by
  intro s t hne h
  obtain ⟨cp, r, hc, hr, -⟩ := step_response hne h
  exact ⟨cp, r, hc, hr⟩

/-! ## The format of a response -/

/-- Two fields joined, as a number: the upper one counts in units of the lower one's width. -/
theorem toNat_append_eq_add {a b : Nat} (x : BitVec a) (y : BitVec b) :
    (x ++ y).toNat = x.toNat * 2 ^ b + y.toNat := by
  rw [BitVec.toNat_append, ← Nat.shiftLeft_add_eq_or_of_lt y.isLt, Nat.shiftLeft_eq]

/-- A response packet as a number: `STAT` from bit 92, `SATF` at bit 91, `RES` below bit 64 (R72). -/
theorem Response.packet_toNat (r : Response) :
    r.packet.toNat = r.stat.code.toNat * 2 ^ 92 + r.satf.toNat * 2 ^ 91 + r.res.toNat := by
  rw [Response.packet, toNat_append_eq_add, toNat_append_eq_add, toNat_append_eq_add, BitVec.toNat_ofBool,
    BitVec.ofNat_eq_ofNat, BitVec.toNat_zero]
  omega

/-- The codes of `STAT` (R72). -/
theorem Status.code_toNat (e : Status) : e.code.toNat ≤ 2 ∧ (e.code.toNat = 0 ↔ e = .ok) ∧
    (e.code.toNat = 1 ↔ e = .invalidBufferLayout) ∧ (e.code.toNat = 2 ↔ e = .illegalCommand) := by
  cases e <;> decide

/-- The fields of a response packet, taken out of its number (R72). -/
theorem Response.packet_fields (r : Response) :
    r.packet.toNat / 2 ^ 64 % 2 ^ 27 = 0 ∧ r.packet.toNat / 2 ^ 92 = r.stat.code.toNat ∧
    r.packet.toNat % 2 ^ 64 = r.res.toNat ∧ r.packet.toNat / 2 ^ 91 % 2 = r.satf.toNat := by
  have hres := r.res.isLt
  have hsatf := r.satf.toNat_lt
  rw [Response.packet_toNat]
  omega

/-- Settles O8: the fields of the packet, the codes of `STAT`, and what R72 lets the response of a step carry. -/
theorem responsesKeepTheFormat : Obligations.ResponsesKeepTheFormat := by
  intro s t cp r hc h hr
  obtain ⟨cp', r', hc', hr', hres, hsatf⟩ := step_response (by simp [hc]) h
  obtain rfl : cp = cp' := by simpa [hc] using hc'
  obtain rfl : r = r' := by simpa [hr] using hr'
  obtain ⟨hzero, hstat, hlow, hflag⟩ := r.packet_fields
  obtain ⟨hle, hok, hlayout, hillegal⟩ := r.stat.code_toNat
  rw [hstat, hflag]
  exact ⟨hzero, hle, hlow, Bool.toNat_eq_one, hok, hlayout, hillegal, hres, hsatf⟩

/-! ## A run of encoded commands -/

/-- Settles O51, by induction on the list: a packet runs its command, which does the same whatever packets wait. -/
theorem launchRunsThePacketsInOrder : Obligations.LaunchRunsThePacketsInOrder := by
  intro is
  induction is with
  | nil => exact fun _ => rfl
  | cons i is ih =>
    intro s
    have hstep : step { s with commands := (i :: is).map encode } = exec i { s with commands := is.map encode } :=
      stepRunsTheDecodedCommand _ _ _ i rfl (decode_encode i) (wellFormed_eq_true i)
    rw [List.length_cons, runSteps, hstep, execAll]
    rcases exec_ports i { s with commands := [] } with ⟨t, r, h, hr, hports⟩ | ⟨q, h, hports⟩
    · have hnone : t.commands = [] := (exec_frame h).1
      have hwaiting := hports (is.map encode) s.responses
      rw [← hr] at hwaiting
      rw [h, hwaiting]
      exact (ih t).trans (by rw [← hnone])
    · rw [h, hports (is.map encode) s.responses]

end Sys2Proof.Machine
end

section
/-! PROOFS. The textual form (spec/30_encoding.md R80): the ranges of the integer operands and the value of a decimal
literal. -/

namespace Sys2Proof.Machine

/-- Settles O52: a check of what is in range is the check of what is not, with its answers exchanged. -/
theorem assemblerChecksRanges : Obligations.AssemblerChecksRanges := by
  refine ⟨fun v => ?_, fun base len => ?_, fun base len => ?_⟩ <;> rw [AsmLine.assemble, ← ite_not]
  · exact if_congr (by omega) rfl rfl
  · exact if_congr (by omega) rfl rfl
  · exact if_congr (by omega) rfl rfl

/-- A literal's number as a quotient of natural numbers, with the negative exponents in the denominator. -/
theorem decimal_eq_div (digits : Nat) (e : ℤ) :
    (digits : ℚ) * 10 ^ e = ((digits * 10 ^ e.toNat : ℕ) : ℚ) / ((10 ^ (-e).toNat : ℕ) : ℚ) := by
  have he : e = (e.toNat : ℤ) - ((-e).toNat : ℤ) := by omega
  push_cast
  rw [mul_div_assoc, ← zpow_natCast, ← zpow_natCast, ← zpow_sub₀ (by norm_num), ← he]

/-- Settles O53: the value is the quotient's rounded magnitude under the sign, and rounding is to nearest. -/
theorem decimalLiteralIsNearest : Obligations.DecimalLiteralIsNearest := by
  intro negative digits exp10
  refine ⟨_, rfl, ?_⟩
  have h := F64.rounds_pack negative (digits * 10 ^ exp10.toNat * F64.unitsPerOne) (10 ^ (-exp10).toNat) (by positivity)
  rwa [Nat.cast_mul, mul_div_right_comm ((digits * 10 ^ exp10.toNat : ℕ) : ℚ), ← decimal_eq_div, mul_div_assoc,
    mul_div_cancel_right₀ _ F64.unitsPerOne_pos.ne', ← mul_assoc] at h

end Sys2Proof.Machine
end

section
/-! PROOFS. The Coefficient Table (spec/40_coefficient_table.md R102, R103, R106): rounding with halves away from zero as
a floor, and the constraints of this hardware's table over exact rationals. -/

namespace Sys2Proof

/-- An integer within one half of a rational that is not negative, and the larger one where two are equally near, is the
floor of the rational plus one half. -/
theorem floor_add_half_eq {z : ℤ} {x : ℚ} (hx : 0 ≤ x) (hnear : |(z : ℚ) - x| ≤ 1 / 2)
    (htie : |(z : ℚ) - x| = 1 / 2 → |x| < |(z : ℚ)|) : ⌊x + 1 / 2⌋ = z := by
  obtain ⟨hlo, hhi⟩ := abs_le.1 hnear
  have hz : (0 : ℚ) ≤ z := by
    have : (-1 : ℤ) < z := by exact_mod_cast (by linarith : (-1 : ℚ) < z)
    exact_mod_cast this
  have hbelow : x ≠ z + 1 / 2 := by
    rintro rfl
    rw [abs_of_nonneg hx, abs_of_nonneg hz] at htie
    linarith [htie (by norm_num)]
  have hlt : x < z + 1 / 2 := lt_of_le_of_ne (by linarith) hbelow
  exact Int.floor_eq_iff.2 ⟨by linarith, by linarith⟩

/-- The scaled tap as a floor: of the magnitude plus one half, under the sign, so that halves go away from zero (R103). -/
theorem F64.scaledTap_eq_floor (c : F64) :
    c.scaledTap = if c.toRat < 0 then -⌊-c.toRat * 32768 + 1 / 2⌋ else ⌊c.toRat * 32768 + 1 / 2⌋ := by
  obtain ⟨hnear, htie⟩ := c.scaledTap_spec
  split
  · next hneg =>
    have hflip : |((-c.scaledTap : ℤ) : ℚ) - -c.toRat * 32768| = |(c.scaledTap : ℚ) - c.toRat * 32768| := by
      rw [← abs_neg]; push_cast; ring_nf
    have hfloor : ⌊-c.toRat * 32768 + 1 / 2⌋ = -c.scaledTap := by
      refine floor_add_half_eq (by linarith) (hflip ▸ hnear) fun h => ?_
      simpa using htie (hflip ▸ h)
    rw [hfloor, neg_neg]
  · next hpos => exact (floor_add_half_eq (by linarith) hnear htie).symm

/-- A number above zero in units of 2^-1074 is above zero as a rational. -/
theorem F64.toRat_pos {x : F64} (h : 0 < x.val) : 0 < x.toRat :=
  div_pos (by exact_mod_cast h) F64.unitsPerOne_pos

/-- Settles O14, by R106 for this hardware's table, with the scaled tap as a floor. -/
theorem Machine.hardwareTableIsAdmissible : Obligations.HardwareTableIsAdmissible := by
  obtain ⟨hsymm, hderived, hfinite, hgain, hpos⟩ := Machine.hw_admissible
  refine ⟨fun i h => ?_, hgain, F64.toRat_pos hpos⟩
  obtain ⟨hcoeff, hfpcoeff⟩ := hsymm ⟨i, h⟩
  simp only [Fin.getElem_fin, Fin.val_rev, Nat.add_sub_add_right] at hcoeff hfpcoeff
  exact ⟨hcoeff, hfpcoeff, hfinite ⟨i, h⟩, (hderived ⟨i, h⟩).trans (F64.scaledTap_eq_floor _)⟩

end Sys2Proof
end

section
/-! PROOFS. Binary64 arithmetic (spec/41_float_engine.md R124, R127, R128): the three operations over finite operands are
the exact results rounded; one equation for each kind of operand that is not finite, and for a zero divisor; and the
zeros that multiplying and adding absorb; and the results that are no NaN. -/

namespace Sys2Proof

@[simp] theorem ieee_fadd (x y : F64) : Numerics.ieee.fadd x y = F64.add x y := rfl
@[simp] theorem ieee_fmul (x y : F64) : Numerics.ieee.fmul x y = F64.mul x y := rfl
@[simp] theorem ieee_fdiv (x y : F64) : Numerics.ieee.fdiv x y = F64.div x y := rfl

/-! ## Finite operands -/

theorem F64.signum_inv (s : Bool) : (F64.signum s)⁻¹ = F64.signum s := by cases s <;> norm_num [F64.signum]

theorem F64.unitsPerOne_pos_nat : 0 < F64.unitsPerOne := by exact_mod_cast F64.unitsPerOne_pos

theorem F64.mag_pos {x : F64} (h : x.isZero = false) : 0 < x.mag :=
  Nat.pos_of_ne_zero fun h' => by simp [F64.mag_eq_zero.1 h'] at h

theorem F64.toRat_add (x y : F64) : x.toRat + y.toRat = ((x.val + y.val : ℤ) : ℚ) / (F64.unitsPerOne : ℚ) := by
  rw [F64.toRat, F64.toRat, Int.cast_add, add_div]

/-- An integer is its sign and its magnitude. -/
theorem signum_mul_natAbs (v : ℤ) : F64.signum (decide (v < 0)) * (v.natAbs : ℚ) = v := by
  rw [Nat.cast_natAbs, Int.cast_abs]
  by_cases h : v < 0
  · rw [abs_of_neg (by exact_mod_cast h)]; simp [F64.signum, h]
  · rw [abs_of_nonneg (by exact_mod_cast not_lt.1 h)]; simp [F64.signum, h]

/-- A sum of finite numbers is zero as a rational exactly when it is in units of 2^-1074. -/
theorem F64.toRat_add_eq_zero {x y : F64} : x.toRat + y.toRat = 0 ↔ x.val + y.val = 0 := by
  rw [F64.toRat_add, div_eq_zero_iff, or_iff_left F64.unitsPerOne_pos.ne', Int.cast_eq_zero]

/-- A zero of either sign is the exact value 0, rounded. -/
theorem F64.rounds_zero (s : Bool) : Machine.Rounds 0 (F64.pack s 0) := by
  simpa [F64.roundMag_zero] using F64.rounds_pack s 0 1 Nat.one_pos

theorem F64.rounds_add {x y : F64} (hx : x.isFinite = true) (hy : y.isFinite = true) :
    Machine.Rounds (x.toRat + y.toRat) (F64.add x y) := by
  rw [F64.add_finite hx hy]
  split
  · next h => rw [F64.toRat_add_eq_zero.2 h]; exact F64.rounds_zero _
  · next h =>
    have hr := F64.rounds_pack (decide (x.val + y.val < 0)) (x.val + y.val).natAbs 1 Nat.one_pos
    rwa [Nat.cast_one, div_one, signum_mul_natAbs, ← F64.toRat_add] at hr

theorem F64.add_of_sum_zero {x y : F64} (hx : x.isFinite = true) (hy : y.isFinite = true) (h : x.toRat + y.toRat = 0) :
    F64.add x y = F64.pack (x.sign && y.sign) 0 := by
  rw [F64.add_finite hx hy, if_pos (F64.toRat_add_eq_zero.1 h)]

theorem F64.rounds_mul {x y : F64} (hx : x.isFinite = true) (hy : y.isFinite = true) :
    Machine.Rounds (x.toRat * y.toRat) (F64.mul x y) := by
  have hr := F64.rounds_pack (x.sign != y.sign) (x.mag * y.mag) F64.unitsPerOne F64.unitsPerOne_pos_nat
  have hval : x.toRat * y.toRat = F64.signum (x.sign != y.sign) *
      (((x.mag * y.mag : ℕ) : ℚ) / (F64.unitsPerOne : ℚ)) / (F64.unitsPerOne : ℚ) := by
    rw [F64.toRat_eq, F64.toRat_eq, F64.signum_xor, F64.mag, F64.mag]; push_cast; ring
  rwa [F64.mul_finite hx hy, hval]

theorem F64.rounds_div {x y : F64} (hx : x.isFinite = true) (hy : y.isFinite = true) (h0 : y.isZero = false) :
    Machine.Rounds (x.toRat / y.toRat) (F64.div x y) := by
  have hr := F64.rounds_pack (x.sign != y.sign) (x.mag * F64.unitsPerOne) y.mag (F64.mag_pos h0)
  have hval : x.toRat / y.toRat = F64.signum (x.sign != y.sign) *
      (((x.mag * F64.unitsPerOne : ℕ) : ℚ) / (y.mag : ℚ)) / (F64.unitsPerOne : ℚ) := by
    rw [F64.toRat_eq, F64.toRat_eq, div_div_div_cancel_right₀ F64.unitsPerOne_pos.ne', mul_div_mul_comm, F64.signum_xor,
      div_eq_mul_inv (F64.signum _), F64.signum_inv, Nat.cast_mul, mul_div_right_comm (x.mag : ℚ), ← mul_assoc,
      mul_div_cancel_right₀ _ F64.unitsPerOne_pos.ne', F64.mag, F64.mag]
  rwa [F64.div_finite hx hy h0, hval]

/-- Settles O15: each operation packs the exact result's sign and rounded magnitude, and rounding is to nearest. -/
theorem arithmeticIsCorrectlyRounded : Obligations.ArithmeticIsCorrectlyRounded := by
  intro x y hx hy
  refine ⟨F64.rounds_add hx hy, fun h => ?_, F64.rounds_mul hx hy, ?_, fun h0 => ⟨F64.rounds_div hx hy h0, ?_⟩⟩
  · rw [ieee_fadd, F64.add_of_sum_zero hx hy h]
    cases x.sign && y.sign <;> rfl
  · rw [ieee_fmul, F64.mul_finite hx hy, F64.pack_sign _ (F64.roundMag_lt _ _), Bool.bne_eq_xor]
  · rw [ieee_fdiv, F64.div_finite hx hy h0, F64.pack_sign _ (F64.roundMag_lt _ _), Bool.bne_eq_xor]

/-! ## Operands that are not finite, and zero divisors -/

theorem F64.isNaN_someNaN : F64.someNaN.isNaN = true := by decide

theorem F64.isInf_pack_infMag (s : Bool) : (F64.pack s F64.infMag).isInf = true := by cases s <;> decide

theorem F64.mul_comm (x y : F64) : F64.mul x y = F64.mul y x := by
  simp only [F64.mul, Bool.or_comm, bne_comm, Nat.mul_comm]

theorem F64.add_isNaN {x y : F64} (h : x.isNaN = true ∨ y.isNaN = true) : F64.add x y = F64.someNaN :=
  if_pos (Bool.or_eq_true_iff.2 h)

theorem F64.mul_isNaN {x y : F64} (h : x.isNaN = true ∨ y.isNaN = true) : F64.mul x y = F64.someNaN :=
  if_pos (Bool.or_eq_true_iff.2 h)

theorem F64.div_isNaN {x y : F64} (h : x.isNaN = true ∨ y.isNaN = true) : F64.div x y = F64.someNaN :=
  if_pos (Bool.or_eq_true_iff.2 h)

theorem F64.add_inf_inf {x y : F64} (hx : x.isInf = true) (hy : y.isInf = true) :
    F64.add x y = if x.sign = y.sign then x else F64.someNaN := by
  simp [F64.add, F64.isNaN_of_isInf hx, F64.isNaN_of_isInf hy, hx, hy]

theorem F64.add_inf_finite {x y : F64} (hx : x.isInf = true) (hy : y.isFinite = true) : F64.add x y = x := by
  simp [F64.add, F64.isNaN_of_isInf hx, F64.isNaN_of_isFinite hy, hx, F64.isInf_of_isFinite hy]

theorem F64.add_finite_inf {x y : F64} (hx : x.isFinite = true) (hy : y.isInf = true) : F64.add x y = y := by
  simp [F64.add, F64.isNaN_of_isFinite hx, F64.isNaN_of_isInf hy, F64.isInf_of_isFinite hx, hy]

theorem F64.mul_inf_zero {x y : F64} (hx : x.isInf = true) (hy : y.isZero = true) : F64.mul x y = F64.someNaN := by
  simp [F64.mul, hx, hy]

theorem F64.mul_inf {x y : F64} (hx : x.isInf = true) (h0 : y.isZero = false) (hn : y.isNaN = false) :
    F64.mul x y = F64.pack (x.sign != y.sign) F64.infMag := by
  simp [F64.mul, F64.isNaN_of_isInf hx, hn, hx, F64.isZero_of_isInf hx, h0]

theorem F64.div_inf_inf {x y : F64} (hx : x.isInf = true) (hy : y.isInf = true) : F64.div x y = F64.someNaN := by
  simp [F64.div, hx, hy]

theorem F64.div_inf_finite {x y : F64} (hx : x.isInf = true) (hy : y.isFinite = true) :
    F64.div x y = F64.pack (x.sign != y.sign) F64.infMag := by
  simp [F64.div, F64.isNaN_of_isInf hx, F64.isNaN_of_isFinite hy, hx, F64.isInf_of_isFinite hy]

theorem F64.div_finite_inf {x y : F64} (hx : x.isFinite = true) (hy : y.isInf = true) :
    F64.div x y = F64.pack (x.sign != y.sign) 0 := by
  simp [F64.div, F64.isNaN_of_isFinite hx, F64.isNaN_of_isInf hy, F64.isInf_of_isFinite hx, hy]

theorem F64.div_finite_zero {x y : F64} (hx : x.isFinite = true) (hy : y.isZero = true) :
    F64.div x y = if x.isZero then F64.someNaN else F64.pack (x.sign != y.sign) F64.infMag := by
  have hy' := F64.isFinite_of_isZero hy
  simp [F64.div, F64.isNaN_of_isFinite hx, F64.isNaN_of_isFinite hy', F64.isInf_of_isFinite hx,
    F64.isInf_of_isFinite hy', hy]

/-- An infinity packed with the sign of a product or a quotient. -/
theorem F64.pack_infMag_spec (a b : Bool) :
    (F64.pack (a != b) F64.infMag).isInf = true ∧ (F64.pack (a != b) F64.infMag).sign = (a ^^ b) :=
  ⟨F64.isInf_pack_infMag _, (F64.pack_sign _ F64.infMag_lt).trans (congrFun₂ Bool.bne_eq_xor a b)⟩

/-- Settles O16, by the operations' equations, one for each pair of kinds of operand. -/
theorem nonFiniteOperandsGiveDefaultResults : Obligations.NonFiniteOperandsGiveDefaultResults := by
  intro x y
  simp only [ieee_fadd, ieee_fmul, ieee_fdiv]
  refine ⟨fun h => ?_, fun hx hy => ?_, fun hx hy => ?_, fun hx hy => ?_, fun hx h0 hn => ?_, fun hx hy => ?_,
    fun hx h0 hy => ?_⟩
  · rw [F64.add_isNaN h, F64.mul_isNaN h, F64.div_isNaN h]
    exact ⟨F64.isNaN_someNaN, F64.isNaN_someNaN, F64.isNaN_someNaN⟩
  · rw [F64.div_inf_inf hx hy, F64.add_inf_inf hx hy]
    refine ⟨F64.isNaN_someNaN, ?_⟩
    split
    · rfl
    · exact F64.isNaN_someNaN
  · rw [F64.div_finite_inf hy hx, F64.div_inf_finite hx hy, F64.pack_sign _ (by norm_num), Bool.bne_eq_xor]
    exact ⟨F64.add_inf_finite hx hy, F64.add_finite_inf hy hx, F64.isZero_pack _, rfl, F64.pack_infMag_spec _ _⟩
  · rw [F64.mul_comm y x, F64.mul_inf_zero hx hy]
    exact ⟨F64.isNaN_someNaN, F64.isNaN_someNaN⟩
  · rw [F64.mul_comm y x, F64.mul_inf hx h0 hn, Bool.xor_comm y.sign]
    exact ⟨(F64.pack_infMag_spec _ _).1, (F64.pack_infMag_spec _ _).2, F64.pack_infMag_spec _ _⟩
  · rw [F64.div_finite_zero (F64.isFinite_of_isZero hx) hy, if_pos hx]
    exact F64.isNaN_someNaN
  · rw [F64.div_finite_zero hx hy, h0]
    exact F64.pack_infMag_spec _ _

/-! ## Zeros -/

theorem F64.isZero_zero : F64.isZero 0 = true := by decide

theorem F64.mul_zero_finite {z c : F64} (hz : z.isZero = true) (hc : c.isFinite = true) : (F64.mul z c).isZero = true := by
  rw [F64.mul_finite (F64.isFinite_of_isZero hz) hc, F64.mag_eq_zero.2 hz, Nat.zero_mul,
    F64.roundMag_zero F64.unitsPerOne_pos_nat]
  exact F64.isZero_pack _

/-- +0.0 plus a zero of either sign is +0.0 (R124). -/
theorem F64.zero_add_zero {z : F64} (hz : z.isZero = true) : F64.add 0 z = 0 := by
  rw [F64.add_finite (by decide) (F64.isFinite_of_isZero hz), F64.val_zero F64.isZero_zero, F64.val_zero hz]
  rfl

/-- A pattern that is no NaN is finite or an infinity. -/
theorem F64.isFinite_or_isInf {x : F64} (h : x.isNaN = false) : x.isFinite = true ∨ x.isInf = true := by
  simp only [F64.isNaN, decide_eq_false_iff_not, not_lt] at h
  simpa [F64.isFinite, F64.isInf] using h.lt_or_eq

/-- A number other than a zero, an infinity included, is not changed by adding a zero to it, nor by adding it to one. -/
theorem F64.add_zero_neutral {x z : F64} (hn : x.isNaN = false) (h0 : x.isZero = false) (hz : z.isZero = true) :
    F64.add x z = x ∧ F64.add z x = x := by
  have hzf := F64.isFinite_of_isZero hz
  rcases F64.isFinite_or_isInf hn with hx | hx
  · rw [F64.add_finite hx hzf, F64.add_finite hzf hx, F64.val_zero hz, add_zero, zero_add, if_neg (F64.val_ne_zero h0),
      if_neg (F64.val_ne_zero h0), F64.pack_roundMag_val hx h0]
    exact ⟨rfl, rfl⟩
  · exact ⟨F64.add_inf_finite hx hzf, F64.add_finite_inf hzf hx⟩

/-- A number above zero has the positive sign and is no zero. -/
theorem F64.sign_isZero_of_toRat_pos {g : F64} (h : 0 < g.toRat) : g.sign = false ∧ g.isZero = false := by
  have hv : 0 < g.val := by
    rw [F64.toRat, div_pos_iff_of_pos_right F64.unitsPerOne_pos] at h
    exact_mod_cast h
  constructor
  · by_contra hs
    rw [F64.val, if_pos (by simpa using hs)] at hv
    omega
  · by_contra h0
    exact hv.ne' (F64.val_zero (by simpa using h0))

/-- +0.0 over a finite number above zero is +0.0 (R127). -/
theorem F64.zero_div_pos {g : F64} (hg : g.isFinite = true) (hpos : 0 < g.toRat) : F64.div 0 g = 0 := by
  obtain ⟨hs, h0⟩ := F64.sign_isZero_of_toRat_pos hpos
  have hm : F64.mag 0 = 0 := F64.magOf_zero
  rw [F64.div_finite (by decide) hg h0, hs, hm, Nat.zero_mul, F64.roundMag_zero (F64.mag_pos h0)]
  rfl

/-- Settles O17: a product with a zero rounds 0, a sum with a zero rounds the other operand, and a quotient of +0.0 rounds
0 under the positive sign. -/
theorem zerosAreNeutralInTheNumerics : Obligations.ZerosAreNeutralInTheNumerics := by
  refine ⟨fun z c => F64.mul_zero_finite, fun z => F64.zero_add_zero, fun x z hx h0 hz => ?_, fun g => F64.zero_div_pos⟩
  rcases h0 with h0 | rfl
  · have hn := F64.isNaN_of_isFinite hx
    exact ⟨(F64.add_zero_neutral hn h0 hz).1, (F64.add_zero_neutral hn h0 F64.isZero_zero).2⟩
  · exact ⟨F64.zero_add_zero hz, F64.zero_add_zero F64.isZero_zero⟩

/-! ## Results that are no NaN -/

theorem F64.isNaN_pack_infMag (s : Bool) : (F64.pack s F64.infMag).isNaN = false :=
  F64.isNaN_of_isInf (F64.isInf_pack_infMag s)

theorem F64.isNaN_pack_roundMag (s : Bool) (num den : Nat) : (F64.pack s (F64.roundMag num den)).isNaN = false := by
  rw [F64.isNaN, F64.pack_magBits s (F64.roundMag_lt _ _), decide_eq_false_iff_not, not_lt]
  exact min_le_right _ _

theorem F64.isNaN_mul_finite {x y : F64} (hx : x.isFinite = true) (hy : y.isFinite = true) :
    (F64.mul x y).isNaN = false := by
  rw [F64.mul_finite hx hy]
  exact F64.isNaN_pack_roundMag _ _ _

/-- Dividing by a finite number other than a zero makes no NaN, of an overflowed product neither. -/
theorem F64.isNaN_div_finite {x y : F64} (hx : x.isNaN = false) (hy : y.isFinite = true) (h0 : y.isZero = false) :
    (F64.div x y).isNaN = false := by
  rcases F64.isFinite_or_isInf hx with hx | hx
  · rw [F64.div_finite hx hy h0]
    exact F64.isNaN_pack_roundMag _ _ _
  · rw [F64.div_inf_finite hx hy]
    exact F64.isNaN_pack_infMag _

end Sys2Proof
end

section
/-! PROOFS. The Float engine (spec/41_float_engine.md R120 to R131): what PROC.F and a run of it answer, and the ordered
sum over a line of zeros and over a line with one sample among zeros. -/

namespace Sys2Proof.Machine

/-! ## What PROC.F and a run of it answer -/

/-- Settles O10: the line is constructed, and the command responds with zeros. -/
theorem newengFConstructsTheFloatSlot : Obligations.NewengFConstructsTheFloatSlot :=
  ⟨rfl, fun _ => ⟨_, exec_eq_next_iff.2 .newengF, fun _ h => FloatSlot.constructed_hf_getElem h, rfl⟩⟩

theorem SameUpToNaN.symm {x y : F64} (h : SameUpToNaN x y) : SameUpToNaN y x := h.imp Eq.symm And.symm

theorem SameUpToNaN.trans {x y z : F64} (hxy : SameUpToNaN x y) (hyz : SameUpToNaN y z) : SameUpToNaN x z := by
  rcases hxy with rfl | ⟨hx, hy⟩
  · exact hyz
  · rcases hyz with rfl | ⟨-, hz⟩
    · exact .inr ⟨hx, hy⟩
    · exact .inr ⟨hx, hz⟩

theorem SameUpToNaN.eq_of_not_isNaN {x y : F64} (h : SameUpToNaN x y) (hx : x.isNaN = false) : y = x := by
  rcases h with h | ⟨hn, -⟩
  · exact h.symm
  · simp [hx] at hn

theorem SameUpToNaN.isNaN {x y : F64} (h : SameUpToNaN x y) (hx : x.isNaN = true) : y.isNaN = true := by
  rcases h with rfl | ⟨-, hy⟩
  · exact hx
  · exact hy

/-- Settling a NaN changes at most its pattern (R128). -/
theorem sameUpToNaN_settleNaN (y : F64) (draws : Nat) : SameUpToNaN y (settleNaN y draws).1 := by
  obtain ⟨hval, hnan⟩ := settleNaN_spec y draws
  cases h : y.isNaN with
  | false => exact .inl (by rw [hval h])
  | true => exact .inr ⟨h, hnan h⟩

/-- The response `r` carries the output of the Float engine for the line as it stands, up to the pattern of a NaN. -/
def FloatSlot.Answers (slot : FloatSlot Config.N) (r : Response) : Prop :=
  ∃ y, r = ⟨.ok, false, y⟩ ∧ SameUpToNaN (outputF hw slot) y

theorem FloatSlot.Answers.eq_of_not_isNaN {slot : FloatSlot Config.N} {r : Response} (h : slot.Answers r)
    (hn : (outputF hw slot).isNaN = false) : r = ⟨.ok, false, outputF hw slot⟩ := by
  obtain ⟨y, rfl, hy⟩ := h
  rw [hy.eq_of_not_isNaN hn]

/-- PROC.F shifts the sample in, answers for the new line, and changes nothing else but the model's count of NaN draws
(R121). -/
theorem exec_procF_answers (x : F64) (s : State) : ∃ t r, exec (.procF x) s = .next t ∧
    t.float = ⟨shiftIn s.float.hf x⟩ ∧ t.responses = s.responses ++ [r] ∧ t.float.Answers r ∧
    t.fixed = s.fixed ∧ t.mem = s.mem ∧ t.commands = s.commands :=
  ⟨_, _, exec_eq_next_iff.2 (.procF x), rfl, rfl, ⟨_, rfl, sameUpToNaN_settleNaN _ _⟩, rfl, rfl, rfl⟩

/-- Response `k` of a run of PROC.F answers for the line after `k + 1` samples. -/
theorem execAll_procF_answers (xs : List F64) (s : State) : ∃ t rs, execAll (xs.map .procF) s = .next t ∧
    t.responses = s.responses ++ rs ∧ rs.length = xs.length ∧
    ∀ k (h : k < rs.length), FloatSlot.Answers ⟨(xs.take (k + 1)).foldl shiftIn s.float.hf⟩ rs[k] := by
  induction xs generalizing s with
  | nil => exact ⟨s, [], rfl, by simp, rfl, fun k h => absurd h (Nat.not_lt_zero k)⟩
  | cons x xs ih =>
    obtain ⟨u, r, hu, hfloat, hr, hans, -⟩ := exec_procF_answers x s
    obtain ⟨t, rs, ht, hrs, hlen, hrun⟩ := ih u
    rw [hfloat] at hans hrun
    refine ⟨t, r :: rs, (execAll_cons hu _).trans ht, by simp [hrs, hr], by simp [hlen], fun k h => ?_⟩
    cases k with
    | zero => simpa using hans
    | succ k => simpa using hrun k (Nat.lt_of_succ_lt_succ h)

/-- The same of a run of PROC.F on a constructed line (R120). -/
theorem execAll_newengF_procF_answers (xs : List F64) (s : State) :
    ∃ t rs, execAll (.newengF :: xs.map .procF) s = .next t ∧
      t.responses = s.responses ++ ⟨.ok, false, 0⟩ :: rs ∧ rs.length = xs.length ∧
      ∀ k (h : k < rs.length),
        FloatSlot.Answers ⟨(xs.take (k + 1)).foldl shiftIn (FloatSlot.constructed Config.N).hf⟩ rs[k] := by
  obtain ⟨t, rs, ht, hrs, hlen, hrun⟩ := execAll_procF_answers xs
    (respondOk false 0 { s with float := FloatSlot.constructed Config.N })
  exact ⟨t, rs, (execAll_cons (exec_eq_next_iff.2 .newengF) _).trans ht, by simp [hrs], hlen, hrun⟩

/-- Settles O22: either run answers for the same new line, and up to a NaN's pattern the line alone decides the answer. -/
theorem procFDependsOnTheFloatHistoryOnly : Obligations.ProcFDependsOnTheFloatHistoryOnly := by
  intro x s s' h
  obtain ⟨t, _, ht, hfloat, hr, ⟨y, rfl, hy⟩, -⟩ := exec_procF_answers x s
  obtain ⟨t', _, ht', hfloat', hr', ⟨y', rfl, hy'⟩, -⟩ := exec_procF_answers x s'
  have hsame : t.float = t'.float := by rw [hfloat, hfloat', h]
  rw [hsame] at hy
  exact ⟨t, t', y, y', ht, ht', hsame, hr, hr', hy.symm.trans hy'⟩

/-! ## The ordered sum -/

@[simp] theorem hw_num : hw.num = Numerics.ieee := rfl

/-- The accumulator of R123 before term `k`. -/
def partialSumF {n : Nat} (num : Numerics) (hf coeff : Vector F64 (n + 1)) (k : Nat) : F64 :=
  ((hf.toList.zip coeff.toList).take k).foldl (fun a p => num.fadd a (num.fmul p.1 p.2)) 0

theorem partialSumF_succ {n : Nat} (num : Numerics) (hf coeff : Vector F64 (n + 1)) {i : Nat} (h : i < n + 1) :
    partialSumF num hf coeff (i + 1) = num.fadd (partialSumF num hf coeff i) (num.fmul hf[i] coeff[i]) := by
  rw [partialSumF, List.take_succ_eq_append_getElem (by simpa using h), List.foldl_append]
  simp [partialSumF]

theorem partialSumF_all {n : Nat} (num : Numerics) (hf coeff : Vector F64 (n + 1)) :
    partialSumF num hf coeff (n + 1) = msumF num hf coeff := by
  rw [partialSumF, List.take_of_length_le (by simp), msumF]

/-- Settles O18: the line is shifted, and the accumulator runs through the partial sums. -/
theorem procFFiltersOneSample : Obligations.ProcFFiltersOneSample := by
  intro x s
  obtain ⟨t, _, ht, hfloat, hr, ⟨y, rfl, hy⟩, hfixed, hmem, hcmd⟩ := exec_procF_answers x s
  refine ⟨rfl, t, partialSumF Numerics.ieee t.float.hf hw.table.coeff, outputF hw t.float, y, ht, fun i h => ?_, ?_, rfl,
    fun i h => partialSumF_succ _ _ _ h, ?_, hy.eq_of_not_isNaN, hy.isNaN, hr, hfixed, hmem, hcmd⟩
  · rw [hfloat]; exact shiftIn_getElem _ _ h
  · rw [hfloat]; exact shiftIn_newest _ _
  · rw [partialSumF_all, outputF, hw_num]

/-! ## A line of zeros, and one sample among zeros -/

theorem hw_coeff_isFinite {c : F64} (h : c ∈ hw.table.coeff.toList) : c.isFinite = true := by
  obtain ⟨-, -, hfinite, -⟩ := hw_admissible
  obtain ⟨i, hi, rfl⟩ := List.getElem_of_mem h
  exact hfinite ⟨i, by simpa using hi⟩

theorem hw_gain_spec : hw.table.gain.isFinite = true ∧ 0 < hw.table.gain.toRat := by
  obtain ⟨-, -, -, hgain, hpos⟩ := hw_admissible
  exact ⟨hgain, F64.toRat_pos hpos⟩

/-- Terms that are zeros leave an accumulator that no zero changes (R127). -/
theorem foldl_terms_zero {acc : F64} (hacc : ∀ z, z.isZero = true → F64.add acc z = acc) {hs cs : List F64}
    (hz : ∀ z ∈ hs, z.isZero = true) (hc : ∀ c ∈ cs, c.isFinite = true) :
    (hs.zip cs).foldl (fun a p => F64.add a (F64.mul p.1 p.2)) acc = acc := by
  induction hs generalizing cs with
  | nil => rfl
  | cons h hs ih =>
    cases cs with
    | nil => rfl
    | cons c cs =>
      rw [List.forall_mem_cons] at hz hc
      rw [List.zip_cons_cons, List.foldl_cons, hacc _ (F64.mul_zero_finite hz.1 hc.1), ih hz.2 hc.2]

theorem msumF_zeros {n : Nat} {hf coeff : Vector F64 (n + 1)} (hz : ∀ z ∈ hf.toList, z.isZero = true)
    (hc : ∀ c ∈ coeff.toList, c.isFinite = true) : msumF Numerics.ieee hf coeff = 0 :=
  foldl_terms_zero (fun _ => F64.zero_add_zero) hz hc

/-- The output for a line of zeros of either sign is +0.0 (R127). -/
theorem outputF_zeros {slot : FloatSlot Config.N} (hz : ∀ z ∈ slot.hf.toList, z.isZero = true) :
    outputF hw slot = 0 := by
  rw [outputF, hw_num, msumF_zeros hz fun _ => hw_coeff_isFinite]
  exact F64.zero_div_pos hw_gain_spec.1 hw_gain_spec.2

theorem FloatSlot.Answers.zero {slot : FloatSlot Config.N} {r : Response} (h : slot.Answers r)
    (hz : ∀ z ∈ slot.hf.toList, z.isZero = true) : r = ⟨.ok, false, 0⟩ := by
  rw [h.eq_of_not_isNaN (by rw [outputF_zeros hz]; decide), outputF_zeros hz]

/-- Every entry after some samples is an old entry or one of them. -/
theorem mem_foldl_shiftIn {α : Type} {n : Nat} {hist : Vector α (n + 1)} {xs : List α} {y : α}
    (h : y ∈ (xs.foldl shiftIn hist).toList) : y ∈ hist.toList ∨ y ∈ xs := by
  rw [foldl_shiftIn_toList] at h
  exact List.mem_append.1 (List.mem_of_mem_drop h)

theorem isZero_of_mem_replicate (k : Nat) : ∀ z ∈ List.replicate k (0 : F64), z.isZero = true := by
  intro z hz
  rw [List.eq_of_mem_replicate hz]
  exact F64.isZero_zero

theorem FloatSlot.constructed_toList (n : Nat) : (FloatSlot.constructed n).hf.toList = List.replicate (n + 1) 0 :=
  Vector.toList_replicate

/-- Settles O19: the line after the shift, and after every sample of the stream, is all zeros. -/
theorem zeroInputGivesPlusZero : Obligations.ZeroInputGivesPlusZero := by
  refine ⟨fun x s hx hold => ?_, fun xs s hxs => ?_⟩
  · obtain ⟨t, r, ht, hfloat, hr, hans, -⟩ := exec_procF_answers x s
    refine ⟨t, ht, ?_⟩
    rw [hr, hans.zero fun z hz => ?_]
    rw [hfloat, shiftIn_toList, List.mem_append, List.mem_singleton] at hz
    rcases hz with hz | rfl
    · obtain ⟨i, hi, rfl⟩ := List.getElem_of_mem hz
      simpa using hold i (by simpa using hi)
    · exact hx
  · obtain ⟨t, rs, ht, hrs, hlen, hrun⟩ := execAll_newengF_procF_answers xs s
    have hzero : rs = List.replicate xs.length ⟨.ok, false, 0⟩ := by
      refine List.eq_replicate_iff.2 ⟨hlen, fun r hr => ?_⟩
      obtain ⟨k, hk, rfl⟩ := List.getElem_of_mem hr
      refine (hrun k hk).zero fun z hz => ?_
      rcases mem_foldl_shiftIn hz with hz | hz
      · exact isZero_of_mem_replicate _ z (FloatSlot.constructed_toList Config.N ▸ hz)
      · exact hxs z (List.mem_of_mem_take hz)
    exact ⟨t, ht, by rw [hrs, hzero, List.replicate_succ]⟩

/-- Where a line is zeros but for one entry, the ordered sum is that entry's product, or +0.0 where the product is a zero of
either sign (R131). -/
theorem msumF_single {n : Nat} {hf coeff : Vector F64 (n + 1)} {pre post : List F64} {a : F64}
    (hline : hf.toList = pre ++ a :: post) (hpre : ∀ z ∈ pre, z.isZero = true) (hpost : ∀ z ∈ post, z.isZero = true)
    (ha : a.isFinite = true) (hc : ∀ c ∈ coeff.toList, c.isFinite = true) (hi : pre.length < n + 1) :
    msumF Numerics.ieee hf coeff =
      if (F64.mul a coeff[pre.length]).isZero then 0 else F64.mul a coeff[pre.length] := by
  obtain ⟨c, hceq⟩ : ∃ c, c = coeff[pre.length] := ⟨_, rfl⟩
  have hi' : pre.length < coeff.toList.length := by simpa using hi
  have htaps : coeff.toList = coeff.toList.take pre.length ++ c :: coeff.toList.drop (pre.length + 1) := by
    rw [hceq, ← Vector.getElem_toList hi', ← List.drop_eq_getElem_cons hi', List.take_append_drop]
  have hlen : pre.length = (coeff.toList.take pre.length).length := by
    rw [List.length_take, Nat.min_eq_left hi'.le]
  rw [← hceq, msumF, hline, htaps, List.zip_append hlen, List.foldl_append, List.zip_cons_cons, List.foldl_cons]
  simp only [ieee_fadd, ieee_fmul]
  rw [foldl_terms_zero (fun _ => F64.zero_add_zero) hpre fun _ h => hc _ (List.mem_of_mem_take h)]
  have hrest := fun c' (h : c' ∈ coeff.toList.drop (pre.length + 1)) => hc c' (List.mem_of_mem_drop h)
  have hnan : (F64.mul a c).isNaN = false := F64.isNaN_mul_finite ha (hc c (htaps ▸ by simp))
  cases h0 : (F64.mul a c).isZero with
  | true =>
    rw [F64.zero_add_zero h0, foldl_terms_zero (fun _ => F64.zero_add_zero) hpost hrest]
    exact (if_pos rfl).symm
  | false =>
    rw [(F64.add_zero_neutral hnan h0 F64.isZero_zero).2,
      foldl_terms_zero (fun _ hz => (F64.add_zero_neutral hnan h0 hz).1) hpost hrest]
    exact (if_neg Bool.false_ne_true).symm

/-- A sample's product with one tap over the gain, or +0.0 where the product is a zero of either sign (R131). -/
def tapOutput (a c : F64) : F64 := if (F64.mul a c).isZero then 0 else F64.div (F64.mul a c) hw.table.gain

theorem tapOutput_not_isNaN {a c : F64} (ha : a.isFinite = true) (hc : c.isFinite = true) :
    (tapOutput a c).isNaN = false := by
  obtain ⟨hgain, hpos⟩ := hw_gain_spec
  rw [tapOutput]
  split
  · decide
  · exact F64.isNaN_div_finite (F64.isNaN_mul_finite ha hc) hgain (F64.sign_isZero_of_toRat_pos hpos).2

/-- The answer for such a line is the one entry's output. -/
theorem FloatSlot.Answers.single {slot : FloatSlot Config.N} {r : Response} (h : slot.Answers r) {pre post : List F64}
    {a : F64} (hline : slot.hf.toList = pre ++ a :: post) (hpre : ∀ z ∈ pre, z.isZero = true)
    (hpost : ∀ z ∈ post, z.isZero = true) (ha : a.isFinite = true) (hi : pre.length < Config.N + 1) :
    r = ⟨.ok, false, tapOutput a hw.table.coeff[pre.length]⟩ := by
  obtain ⟨hgain, hpos⟩ := hw_gain_spec
  have hout : outputF hw slot = tapOutput a hw.table.coeff[pre.length] := by
    rw [outputF, hw_num, msumF_single hline hpre hpost ha (fun _ => hw_coeff_isFinite) hi,
      apply_ite (Numerics.ieee.fdiv · _)]
    exact if_congr Iff.rfl (F64.zero_div_pos hgain hpos) rfl
  have hnan := tapOutput_not_isNaN ha (hw_coeff_isFinite (c := hw.table.coeff[pre.length]) (by simp))
  rw [← hout] at hnan ⊢
  exact h.eq_of_not_isNaN hnan

/-- The line after sample `a` and `k` zeros on a constructed line, while `a` is still on it. -/
theorem impulse_line_early (a : F64) {n k : Nat} (h : k ≤ n) :
    ((a :: List.replicate k 0).foldl shiftIn (FloatSlot.constructed n).hf).toList =
      List.replicate (n - k) 0 ++ a :: List.replicate k 0 := by
  rw [foldl_shiftIn_toList, FloatSlot.constructed_toList, drop_replicate_append 0 (by simpa using h)]
  simp

/-- After more zeros than the line has places for, nothing but zeros is left. -/
theorem impulse_line_late (a : F64) {n k : Nat} (h : n < k) :
    ∀ z ∈ ((a :: List.replicate k 0).foldl shiftIn (FloatSlot.constructed n).hf).toList, z.isZero = true := by
  intro z hz
  rw [List.foldl_cons, foldl_shiftIn_toList, List.length_replicate, List.drop_append,
    List.drop_eq_nil_of_le (by simpa using h), List.nil_append] at hz
  exact isZero_of_mem_replicate k z (List.mem_of_mem_drop hz)

/-- Settles O20: while the sample is on the line, at index N-k, the output is its product over the gain; after that the line
is all zeros. -/
theorem floatImpulseResponse : Obligations.FloatImpulseResponse := by
  intro a zeros s ha
  obtain ⟨t, rs, ht, hrs, hlen, hrun⟩ := execAll_newengF_procF_answers (a :: List.replicate zeros 0) s
  have hexpand : (Pseudo.impulseF a zeros).expand = (a :: List.replicate zeros 0).map .procF := by simp [Pseudo.expand]
  rw [List.length_cons, List.length_replicate] at hlen
  refine ⟨t, rs, hexpand ▸ ht, hrs, hlen, fun k hk => ?_⟩
  have hans := hrun k hk
  rw [List.take_succ_cons, List.take_replicate, Nat.min_eq_left (by omega)] at hans
  rcases Nat.lt_or_ge Config.N k with hlate | hearly
  · have hzero := hans.zero (impulse_line_late a hlate)
    rw [hzero]
    exact ⟨rfl, rfl, fun h => absurd h hlate.not_ge, fun _ => rfl⟩
  · have hsingle := hans.single (impulse_line_early a hearly) (isZero_of_mem_replicate _) (isZero_of_mem_replicate _) ha
      (by rw [List.length_replicate]; omega)
    simp only [List.length_replicate] at hsingle
    rw [hsingle]
    exact ⟨rfl, rfl, fun _ => rfl, fun h => absurd hearly h.not_ge⟩

end Sys2Proof.Machine
end

section
/-! PROOFS. The Fixed engine (spec/42_fixed_engine.md R140 to R158): the rounding shift, the bounds of the accumulator and
its distance from the real taps, and what PROC.X and a run of it answer. -/

namespace Sys2Proof.Machine

/-! ## The rounding shift -/

theorem asr15_eq_div (v : ℤ) : asr15 v = v / 32768 := by
  rw [asr15]
  norm_num

theorem asr15_eq_floor (v : ℤ) : asr15 v = ⌊(v : ℚ) / 32768⌋ := by
  rw [asr15_eq_div]
  exact_mod_cast (Rat.floor_intCast_div_natCast v 32768).symm

/-- A bias `b` leaves the shifted value at most `b` units of 1/32768 above the exact quotient, and at most `32767 - b`
below it. -/
theorem asr15_add_bounds (acc b : ℤ) :
    (acc : ℚ) / 32768 - (32767 - b) / 32768 ≤ (asr15 (acc + b) : ℚ) ∧
    (asr15 (acc + b) : ℚ) ≤ (acc : ℚ) / 32768 + b / 32768 := by
  have hlo : acc + b ≤ 32768 * asr15 (acc + b) + 32767 := by rw [asr15_eq_div]; omega
  have hhi : 32768 * asr15 (acc + b) ≤ acc + b := by rw [asr15_eq_div]; omega
  have hlo' : (acc + b : ℚ) ≤ 32768 * asr15 (acc + b) + 32767 := by exact_mod_cast hlo
  have hhi' : 32768 * (asr15 (acc + b) : ℚ) ≤ acc + b := by exact_mod_cast hhi
  constructor <;> linarith

/-- Settles O25: an admissible bias is at most 32767 and not negative. -/
theorem admissibleSchemeBoundsTheError : Obligations.AdmissibleSchemeBoundsTheError := by
  intro r o acc hr ho
  obtain ⟨hlo, hhi⟩ := hr o ho
  have hlo' : (0 : ℚ) ≤ r.bias o := by exact_mod_cast hlo
  have hhi' : (r.bias o : ℚ) ≤ 32767 := by exact_mod_cast hhi
  obtain ⟨hbelow, habove⟩ := asr15_add_bounds acc (r.bias o)
  constructor <;> linarith

/-- The offsets `ALT` reaches are 0 and 1 (R147). -/
theorem alt_reachable_iff {o : BitVec 15} : Rnd.alt.Reachable o ↔ o = 0 ∨ o = 1 := by
  constructor
  · intro h
    induction h with
    | zero => exact .inl rfl
    | next _ ih => rcases ih with rfl | rfl <;> decide
  · rintro (rfl | rfl)
    · exact .zero
    · exact .next .zero

/-- The bias of `ALT` is one half of the shift's unit, or one less (R147). -/
theorem alt_bias_of_reachable {o : BitVec 15} (h : Rnd.alt.Reachable o) :
    16383 ≤ Rnd.alt.bias o ∧ Rnd.alt.bias o ≤ 16384 := by
  rcases alt_reachable_iff.1 h with rfl | rfl <;> decide

theorem alt_admissible : Rnd.alt.Admissible := by
  intro o h
  obtain ⟨hlo, hhi⟩ := alt_bias_of_reachable h
  exact ⟨by omega, by omega⟩

/-- Settles O24: either bias is within one unit of 1/32768 of one half, and the two shifts part exactly where the remainder
is one half. -/
theorem altRoundsToNearest : Obligations.AltRoundsToNearest := by
  have hb0 : Rnd.alt.bias 0 = 16384 := rfl
  have hb1 : Rnd.alt.bias 1 = 16383 := rfl
  refine ⟨hb0, hb1, rfl, rfl, fun _ => alt_reachable_iff, alt_admissible, fun o acc ho => ?_, fun acc => ?_,
    fun acc htie => ⟨?_, ?_⟩⟩
  · obtain ⟨hbelow, habove⟩ := asr15_add_bounds acc (Rnd.alt.bias o)
    obtain ⟨hlo, hhi⟩ := alt_bias_of_reachable ho
    have hlo' : (16383 : ℚ) ≤ Rnd.alt.bias o := by exact_mod_cast hlo
    have hhi' : (Rnd.alt.bias o : ℚ) ≤ 16384 := by exact_mod_cast hhi
    exact abs_le.2 ⟨by linarith, by linarith⟩
  · rw [hb0, hb1, asr15_eq_div, asr15_eq_div]
    omega
  · have hceil : ⌈(acc : ℚ) / 32768⌉ = -(-acc / 32768) := by exact_mod_cast Rat.ceil_intCast_div_natCast acc 32768
    rw [hceil, hb0, asr15_eq_div]
    omega
  · rw [← asr15_eq_floor, hb1, asr15_eq_div, asr15_eq_div]
    omega

/-! ## The accumulator -/

theorem abs_toInt_le {w : Nat} (x : BitVec (w + 1)) : |x.toInt| ≤ 2 ^ w :=
  abs_le.2 ⟨x.le_toInt, x.toInt_lt.le⟩

theorem abs_sample_le (x : Sample16) : |(x.toInt : ℚ)| ≤ 32768 := by exact_mod_cast abs_toInt_le x

/-- R144: a product of a sample and a tap. -/
theorem abs_product_le (x : Sample16) (c : BitVec 32) : |x.toInt * c.toInt| ≤ 2 ^ 46 :=
  calc |x.toInt * c.toInt| = |x.toInt| * |c.toInt| := abs_mul ..
    _ ≤ 2 ^ 15 * 2 ^ 31 := by gcongr <;> exact abs_toInt_le _
    _ = 2 ^ 46 := by norm_num

/-- R144: 81 products stay well below the range of 64 bits. -/
theorem abs_macX_lt (hx : Vector Sample16 (Config.N + 1)) (taps : Vector (BitVec 32) (Config.N + 1)) :
    |macX hx taps| < 2 ^ 53 := by
  have hsum : |macX hx taps| ≤ (Finset.univ : Finset (Fin (Config.N + 1))).card • (2 : ℤ) ^ 46 := by
    rw [macX_eq_sum]
    exact (Finset.abs_sum_le_sum_abs ..).trans (Finset.sum_le_card_nsmul _ _ _ fun i _ => abs_product_le _ _)
  rw [Finset.card_fin, nsmul_eq_mul] at hsum
  exact hsum.trans_lt (by norm_num)

/-- Adding products in 64 bits adds them modulo 2^64. -/
theorem foldl_mac_ofInt (ps : List (Sample16 × BitVec 32)) (v : ℤ) :
    ps.foldl (fun (a : BitVec 64) p => a + p.1.signExtend 64 * p.2.signExtend 64) (BitVec.ofInt 64 v) =
      BitVec.ofInt 64 (v + (ps.map fun p => s16 p.1 * p.2.toInt).sum) := by
  induction ps generalizing v with
  | nil => simp
  | cons p ps ih =>
    have hstep : BitVec.ofInt 64 v + p.1.signExtend 64 * p.2.signExtend 64 =
        BitVec.ofInt 64 (v + s16 p.1 * p.2.toInt) := by
      rw [BitVec.ofInt_add, BitVec.ofInt_mul]
      rfl
    rw [List.foldl_cons, hstep, ih, List.map_cons, List.sum_cons, add_assoc]

/-- Settles O26: the sum of products and bias is far inside 64 bits, so reducing it modulo 2^64 changes nothing. -/
theorem accumulatorNeverOverflows : Obligations.AccumulatorNeverOverflows := by
  intro hx taps b hb0 hb
  have hmac := abs_macX_lt hx taps
  refine ⟨fun i h => abs_product_le _ _, hmac, ?_⟩
  obtain ⟨hlo, hhi⟩ := abs_lt.1 hmac
  have hfold := foldl_mac_ofInt (hx.toList.zip taps.toList) 0
  rw [zero_add, ← macX] at hfold
  rw [show (0 : BitVec 64) = BitVec.ofInt 64 0 from rfl, hfold, ← BitVec.ofInt_add]
  exact BitVec.toInt_ofInt_eq_self (by norm_num) (by norm_num; omega) (by norm_num; omega)

/-- A tap over 32768 is within 1/65536 of the real tap it was rounded from (R103). -/
theorem hw_fpcoeff_near (i : Fin (Config.N + 1)) :
    |((hw.table.fpcoeff[i]).toInt : ℚ) / 32768 - (hw.table.coeff[i]).toRat| ≤ 1 / 65536 := by
  obtain ⟨-, hderived, -⟩ := hw_admissible
  obtain ⟨hnear, -⟩ := (hw.table.coeff[i]).scaledTap_spec
  rw [← hderived i, abs_le] at hnear
  obtain ⟨hlo, hhi⟩ := hnear
  exact abs_le.2 ⟨by linarith, by linarith⟩

/-- Settles O29: the difference is the sum of the samples times the rounding errors of their taps. -/
theorem fixedSumTracksTheRealTaps : Obligations.FixedSumTracksTheRealTaps := by
  intro hx
  have hdiff : (macX hx hw.table.fpcoeff : ℚ) / 32768 -
      ∑ i : Fin (Config.N + 1), ((hx[i]).toInt : ℚ) * (hw.table.coeff[i]).toRat =
      ∑ i : Fin (Config.N + 1), ((hx[i]).toInt : ℚ) *
        (((hw.table.fpcoeff[i]).toInt : ℚ) / 32768 - (hw.table.coeff[i]).toRat) := by
    rw [macX_eq_sum, Int.cast_sum, Finset.sum_div, ← Finset.sum_sub_distrib]
    exact Finset.sum_congr rfl fun i _ => by rw [Int.cast_mul, mul_sub, mul_div_assoc]
  constructor
  · rw [hdiff, Finset.sum_div]
    refine (Finset.abs_sum_le_sum_abs ..).trans (Finset.sum_le_sum fun i _ => ?_)
    rw [abs_mul, div_eq_mul_one_div |((hx[i]).toInt : ℚ)|]
    exact mul_le_mul_of_nonneg_left (hw_fpcoeff_near i) (abs_nonneg _)
  · have hsum := Finset.sum_le_card_nsmul Finset.univ (fun i : Fin (Config.N + 1) => |((hx[i]).toInt : ℚ)|) 32768
      fun i _ => abs_sample_le _
    rw [Finset.card_fin, nsmul_eq_mul] at hsum
    norm_num at hsum ⊢
    linarith

/-! ## What the commands answer -/

/-- Settles O11: the slot is constructed, and the command responds with zeros. -/
theorem newengXConstructsTheFixedSlot : Obligations.NewengXConstructsTheFixedSlot :=
  ⟨rfl, fun _ => ⟨_, exec_eq_next_iff.2 .newengX, fun _ h => FixedSlot.constructed_hx_getElem h, rfl, rfl, rfl⟩⟩

/-- Settles O31: the zero extension of the counter keeps its value. -/
theorem rdsatReadsTheCounter : Obligations.RdsatReadsTheCounter := by
  refine ⟨rfl, fun s => ?_⟩
  have hres : resCount s.fixed.satcnt = BitVec.ofNat 64 s.fixed.satcnt.toNat := (BitVec.ofNat_toNat ..).symm
  rw [← hres]
  exact exec_eq_next_iff.2 .rdsat

/-- Settles O30: PROC.X is a function of the Fixed slot, and writes only it and its response. -/
theorem procXDependsOnTheFixedSlotOnly : Obligations.ProcXDependsOnTheFixedSlotOnly := by
  intro x s s' h
  obtain ⟨slot, satf, res, hex⟩ := exec_fixed_local (.inr (.inr ⟨x, rfl⟩))
  refine ⟨_, _, ⟨.ok, satf s.fixed, res s.fixed⟩, hex s, hex s', ?_, rfl, ?_, rfl, rfl⟩
  · simp [h]
  · simp [h]

/-- The shifted value `q` of R149, for the line after the shift and the offset the step found. -/
def shiftedX {n : Nat} (p : Params n) (hx : Vector Sample16 (n + 1)) (offs : BitVec 15) : ℤ :=
  asr15 (macX hx p.table.fpcoeff + p.rnd.bias offs)

/-- The response of PROC.X for a shifted value (R75, R150). -/
def answerX (q : ℤ) : Response := ⟨.ok, satEvent q, resFixed (u16 (sat16 q))⟩

theorem stepX_y {n : Nat} (p : Params n) (slot : FixedSlot n) (x : Sample16) :
    (stepX p slot x).y = u16 (sat16 (shiftedX p (shiftIn slot.hx x) slot.offs)) := rfl

theorem stepX_event {n : Nat} (p : Params n) (slot : FixedSlot n) (x : Sample16) :
    (stepX p slot x).event = satEvent (shiftedX p (shiftIn slot.hx x) slot.offs) := rfl

theorem stepX_satcnt {n : Nat} (p : Params n) (slot : FixedSlot n) (x : Sample16) :
    (stepX p slot x).slot.satcnt = countEvent (stepX p slot x).event slot.satcnt := rfl

theorem sat16_eq_ite (q : ℤ) : sat16 q = if 32767 < q then 32767 else if q < -32768 then -32768 else q := by
  rw [sat16]
  split_ifs <;> omega

theorem resFixed_u16 (v : ℤ) : resFixed (u16 v) = BitVec.ofNat 64 (v % 65536).toNat := by
  have htoNat : (u16 v).toNat = (v % 65536).toNat := BitVec.toNat_ofInt v
  rw [← htoNat, BitVec.ofNat_toNat]
  rfl

/-- Settles O23, by the step for the shifted line. -/
theorem procXFiltersOneSample : Obligations.ProcXFiltersOneSample := by
  intro x s
  obtain ⟨q, hq⟩ : ∃ q, q = shiftedX hw (shiftIn s.fixed.hx x) s.fixed.offs := ⟨_, rfl⟩
  refine ⟨rfl, _, macX (shiftIn s.fixed.hx x) hw.table.fpcoeff, q, sat16 q, exec_eq_next_iff.2 (.procX x),
    fun i h => shiftIn_getElem _ _ h, shiftIn_newest _ _, macX_eq_sum _ _, hq.trans (asr15_eq_floor _), sat16_eq_ite q,
    ?_, ?_, fun h => alt_next_toNat h, rfl, rfl, rfl, rfl⟩
  · rw [respondOk_responses, stepX_event, stepX_y, ← hq, satEvent_eq, resFixed_u16]
  · rw [respondOk_fixed, stepX_satcnt, countEvent_toNat, stepX_event, ← hq, satEvent_eq]
    simp only [decide_eq_true_eq]

/-! ## A run of PROC.X -/

/-- PROC.X shifts the sample in, answers for the new line and the offset it found, and advances the offset (R141). -/
theorem exec_procX_answers (x : Sample16) (s : State) : ∃ t, exec (.procX x) s = .next t ∧
    t.fixed.hx = shiftIn s.fixed.hx x ∧ t.fixed.offs = Rnd.alt.next s.fixed.offs ∧
    t.responses = s.responses ++ [answerX (shiftedX hw t.fixed.hx s.fixed.offs)] :=
  ⟨_, exec_eq_next_iff.2 (.procX x), rfl, rfl, rfl⟩

/-- Response `k` of a run of PROC.X answers for the line after `k + 1` samples and the offset after `k` steps. -/
theorem execAll_procX_answers (xs : List Sample16) (s : State) : ∃ t rs, execAll (xs.map .procX) s = .next t ∧
    t.responses = s.responses ++ rs ∧ rs.length = xs.length ∧ t.fixed.offs = Rnd.alt.next^[xs.length] s.fixed.offs ∧
    ∀ k (h : k < rs.length), rs[k] =
      answerX (shiftedX hw ((xs.take (k + 1)).foldl shiftIn s.fixed.hx) (Rnd.alt.next^[k] s.fixed.offs)) := by
  induction xs generalizing s with
  | nil => exact ⟨s, [], rfl, by simp, rfl, rfl, fun k h => absurd h (Nat.not_lt_zero k)⟩
  | cons x xs ih =>
    obtain ⟨u, hu, hhx, hoffs, hr⟩ := exec_procX_answers x s
    obtain ⟨t, rs, ht, hrs, hlen, hoffs', hrun⟩ := ih u
    rw [hhx] at hr hrun
    rw [hoffs] at hoffs' hrun
    refine ⟨t, _ :: rs, (execAll_cons hu _).trans ht, by rw [hrs, hr, List.append_assoc]; rfl, by simp [hlen], hoffs',
      fun k h => ?_⟩
    cases k with
    | zero => rfl
    | succ k => exact hrun k (Nat.lt_of_succ_lt_succ h)

/-- From 0, the offset after `k` steps is `k` modulo 2 (R147). -/
theorem alt_next_iterate_toNat (k : Nat) : (Rnd.alt.next^[k] 0).toNat = k % 2 := by
  induction k with
  | zero => rfl
  | succ k ih =>
    rw [Function.iterate_succ_apply', alt_next_toNat (by omega), ih]
    omega

theorem alt_bias_iterate (k : Nat) : Rnd.alt.bias (Rnd.alt.next^[k] 0) = 16384 - (k % 2 : Nat) := by
  rw [← alt_next_iterate_toNat]
  rfl

/-- The same of a run of PROC.X on a constructed slot (R140). -/
theorem execAll_newengX_procX_answers (xs : List Sample16) (s : State) :
    ∃ t rs, execAll (.newengX :: xs.map .procX) s = .next t ∧
      t.responses = s.responses ++ ⟨.ok, false, 0⟩ :: rs ∧ rs.length = xs.length ∧
      t.fixed.offs.toNat = xs.length % 2 ∧
      ∀ k (h : k < rs.length), rs[k] = answerX (shiftedX hw
        ((xs.take (k + 1)).foldl shiftIn (FixedSlot.constructed Config.N).hx) (Rnd.alt.next^[k] 0)) := by
  obtain ⟨t, rs, ht, hrs, hlen, hoffs, hrun⟩ := execAll_procX_answers xs
    (respondOk false 0 { s with fixed := FixedSlot.constructed Config.N })
  exact ⟨t, rs, (execAll_cons (exec_eq_next_iff.2 .newengX) _).trans ht, by simp [hrs], hlen,
    hoffs ▸ alt_next_iterate_toNat _, hrun⟩

/-! ## A line of zeros, and one sample among zeros -/

theorem macX_zeros {n : Nat} {hx : Vector Sample16 (n + 1)} (taps : Vector (BitVec 32) (n + 1))
    (hz : ∀ i (h : i < n + 1), hx[i] = 0) : macX hx taps = 0 := by
  rw [macX_eq_sum]
  refine Finset.sum_eq_zero fun i _ => ?_
  rw [Fin.getElem_fin, hz i i.isLt]
  exact zero_mul _

/-- An admissible bias alone is shifted out (R148, R153). -/
theorem shiftedX_zeros {n : Nat} {p : Params n} {hx : Vector Sample16 (n + 1)} {offs : BitVec 15}
    (hp : p.rnd.Admissible) (hr : p.rnd.Reachable offs) (hz : ∀ i (h : i < n + 1), hx[i] = 0) :
    shiftedX p hx offs = 0 := by
  obtain ⟨hlo, hhi⟩ := hp offs hr
  rw [shiftedX, macX_zeros _ hz, zero_add, asr15_eq_div]
  omega

/-- A step whose line after the shift is zero answers 0 with no event (R153). -/
theorem stepX_zeros {n : Nat} {p : Params n} {slot : FixedSlot n} {x : Sample16} (hp : p.rnd.Admissible)
    (hr : p.rnd.Reachable slot.offs) (hz : ∀ i (h : i < n + 1), (shiftIn slot.hx x)[i] = 0) :
    (stepX p slot x).y = 0 ∧ (stepX p slot x).event = false := by
  rw [stepX_y, stepX_event, shiftedX_zeros hp hr hz]
  decide

/-- The slot after `k` zero samples on a constructed slot. -/
def zeroStream {n : Nat} (p : Params n) (k : Nat) : FixedSlot n :=
  (fun slot => (stepX p slot 0).slot)^[k] (FixedSlot.constructed n)

theorem zeroStream_succ {n : Nat} (p : Params n) (k : Nat) :
    zeroStream p (k + 1) = (stepX p (zeroStream p k) 0).slot := Function.iterate_succ_apply' ..

theorem shiftIn_zero_getElem {n : Nat} {hx : Vector Sample16 (n + 1)} (hz : ∀ i (h : i < n + 1), hx[i] = 0) (i : Nat)
    (h : i < n + 1) : (shiftIn hx 0)[i] = 0 := by
  rcases Nat.lt_succ_iff_lt_or_eq.1 h with hi | rfl
  · rw [shiftIn_getElem hx 0 hi, hz]
  · exact shiftIn_newest hx 0

theorem zeroStream_spec {n : Nat} (p : Params n) (k : Nat) :
    (∀ i (h : i < n + 1), (zeroStream p k).hx[i] = 0) ∧ p.rnd.Reachable (zeroStream p k).offs := by
  induction k with
  | zero => exact ⟨fun _ h => FixedSlot.constructed_hx_getElem h, .zero⟩
  | succ k ih =>
    obtain ⟨hz, hr⟩ := ih
    rw [zeroStream_succ]
    exact ⟨shiftIn_zero_getElem hz, .next hr⟩

/-- Entry `i` after sample `a` and `k` zeros on a constructed line: `a` has moved `k` places down from the newest. -/
theorem impulse_line_getElem (a : Sample16) {n i : Nat} (k : Nat) (h : i < n + 1) :
    ((a :: List.replicate k 0).foldl shiftIn (FixedSlot.constructed n).hx)[i] = if i + k = n then a else 0 := by
  rw [← Vector.getElem_toList (by simpa using h)]
  simp only [foldl_shiftIn_toList, FixedSlot.constructed, Vector.toList_replicate, List.getElem_drop, List.length_cons,
    List.length_replicate, List.getElem_append, List.getElem_replicate, List.getElem_cons]
  rcases Nat.lt_trichotomy (i + k) n with hlt | heq | hgt
  · rw [dif_pos (by omega), if_neg (by omega)]
  · rw [dif_neg (by omega), dif_pos (by omega), if_pos heq]
  · rw [dif_neg (by omega), dif_neg (by omega), if_neg (by omega)]

theorem macX_impulse_early (a : Sample16) {n k : Nat} (taps : Vector (BitVec 32) (n + 1)) (h : k ≤ n) :
    macX ((a :: List.replicate k 0).foldl shiftIn (FixedSlot.constructed n).hx) taps =
      a.toInt * (taps[n - k]).toInt := by
  rw [macX_eq_sum, Finset.sum_eq_single ⟨n - k, by omega⟩]
  · simp only [Fin.getElem_fin]
    rw [impulse_line_getElem, if_pos (by omega)]
  · intro i _ hi
    have hne : ¬ (i : Nat) + k = n := fun he => hi (Fin.ext (by simp only []; omega))
    rw [Fin.getElem_fin, impulse_line_getElem, if_neg hne]
    exact zero_mul _
  · exact fun hmem => absurd (Finset.mem_univ _) hmem

/-- Step `k` on one sample: its product with tap `N - k` and the bias of the step, shifted (R154). -/
theorem shiftedX_impulse_early (a : Sample16) {k : Nat} (h : k ≤ Config.N) :
    shiftedX hw ((a :: List.replicate k 0).foldl shiftIn (FixedSlot.constructed Config.N).hx) (Rnd.alt.next^[k] 0) =
      (a.toInt * (hw.table.fpcoeff[Config.N - k]).toInt + 16384 - (k % 2 : Nat)) / 32768 := by
  rw [shiftedX, macX_impulse_early a _ h, hw_rnd, alt_bias_iterate, asr15_eq_div, add_sub_assoc]

theorem reachable_iterate (r : Rnd) (k : Nat) : r.Reachable (r.next^[k] 0) := by
  induction k with
  | zero => exact .zero
  | succ k ih => rw [Function.iterate_succ_apply']; exact .next ih

/-- A step on this hardware whose line is zero shifts to 0. -/
theorem shiftedX_alt_zeros {hx : Vector Sample16 (Config.N + 1)} (k : Nat) (hz : ∀ i (h : i < Config.N + 1), hx[i] = 0) :
    shiftedX hw hx (Rnd.alt.next^[k] 0) = 0 :=
  shiftedX_zeros alt_admissible (reachable_iterate Rnd.alt k) hz

theorem answerX_zero : answerX 0 = ⟨.ok, false, 0⟩ := by decide

/-- Settles O27: a line of zeros leaves the bias alone to be shifted; the line stays zero along a stream of zeros, and the
offset reachable. -/
theorem zeroInputGivesZeroOutput : Obligations.ZeroInputGivesZeroOutput := by
  refine ⟨fun n p slot x hp hr hz => ?_, fun n p hp => ⟨zeroStream p, rfl, fun k => ?_⟩, fun k s => ?_⟩
  · obtain ⟨hy, hevent⟩ := stepX_zeros hp hr hz
    exact ⟨hy, hevent, rfl, by rw [stepX_satcnt, hevent]; rfl⟩
  · obtain ⟨hz, hr⟩ := zeroStream_spec p k
    exact ⟨zeroStream_succ p k, stepX_zeros hp hr (shiftIn_zero_getElem hz)⟩
  · obtain ⟨t, rs, ht, hrs, hlen, hoffs, hrun⟩ := execAll_newengX_procX_answers (List.replicate k 0) s
    rw [List.length_replicate] at hlen hoffs
    have hzero : rs = List.replicate k ⟨.ok, false, 0⟩ := by
      refine List.eq_replicate_iff.2 ⟨hlen, fun r hr => ?_⟩
      obtain ⟨j, hj, rfl⟩ := List.getElem_of_mem hr
      rw [hrun j hj, List.take_replicate, Nat.min_eq_left (by omega), List.replicate_succ, shiftedX_alt_zeros j,
        answerX_zero]
      exact fun i h => (impulse_line_getElem 0 j h).trans (ite_self _)
    exact ⟨t, by rwa [List.map_replicate] at ht, by rw [hrs, hzero, List.replicate_succ], hoffs⟩

/-- Settles O28: while the sample is on the line, at index N-k, the sum is its product; after that the line is all zeros. -/
theorem fixedImpulseResponse : Obligations.FixedImpulseResponse := by
  intro a zeros s
  obtain ⟨t, rs, ht, hrs, hlen, -, hrun⟩ := execAll_newengX_procX_answers (a :: List.replicate zeros 0) s
  have hexpand : (Pseudo.impulseX a zeros).expand = (a :: List.replicate zeros 0).map .procX := by simp [Pseudo.expand]
  rw [List.length_cons, List.length_replicate] at hlen
  refine ⟨t, rs, hexpand ▸ ht, hrs, hlen, fun k h => ?_⟩
  rw [hrun k h, List.take_succ_cons, List.take_replicate, Nat.min_eq_left (by omega)]
  refine ⟨rfl, fun hk => ?_, fun hk => ?_⟩
  · rw [shiftedX_impulse_early a hk]
    rfl
  · rw [shiftedX_alt_zeros k, answerX_zero]
    exact fun i hi => (impulse_line_getElem a k hi).trans (if_neg (by omega))

end Sys2Proof.Machine
end

section
/-! PROOFS. The Stream Processor (spec/43_stream_processor.md R170 to R180): FBUF on a bad or an empty length, FBUF as the
PROC commands of its elements, and a buffer filtered in two parts. -/

namespace Sys2Proof.Machine

/-! ## A bad length, and an empty buffer -/

/-- Settles O35: either FBUF looks at the length first. -/
theorem partialSampleRaisesInvalidBufferLayout : Obligations.PartialSampleRaisesInvalidBufferLayout :=
  fun _ _ _ => ⟨fun hlen => exec_eq_next_iff.2 (.layoutF hlen), fun hlen => exec_eq_next_iff.2 (.layoutX hlen)⟩

/-- The empty range at an aligned base meets R54, whatever is allocated. -/
theorem admitted_empty {w : Nat} {base : Addr} (m : Memory) (h : base.toNat % w = 0) :
    Admitted w base.toNat (0 : Addr).toNat m :=
  ⟨h, base.isLt.le, fun _ hlo hhi => absurd hlo (Nat.not_le.2 hhi)⟩

/-- Settles O39: the empty range is admitted and holds no element, and a fold over no element changes nothing. -/
theorem emptyBufferDoesNothing : Obligations.EmptyBufferDoesNothing := fun _ s =>
  ⟨fun h => exec_eq_next_iff.2 (.fbufF (vs := []) rfl (admitted_empty s.mem h) rfl trivial),
    fun h => exec_eq_next_iff.2 (.fbufX (vs := []) rfl (admitted_empty s.mem h) rfl trivial)⟩

/-! ## FBUF.X and the PROC.X commands of its elements -/

@[simp] theorem resFixed_toNat (y : Sample16) : (resFixed y).toNat = y.toNat :=
  BitVec.toNat_setWidth_of_le (by decide)

/-- One more step before a count that stops at 2^32 - 1. -/
theorem countEvent_add_saturates (event : Bool) (c : BitVec 32) (n : Nat) :
    min ((countEvent event c).toNat + n) (2 ^ 32 - 1) = min (c.toNat + (n + if event then 1 else 0)) (2 ^ 32 - 1) := by
  rw [countEvent_toNat]
  split <;> omega

/-- The PROC.X commands of some elements complete, and give what the fold of FBUF.X over these elements gives: the slot, the
outputs as results, and the flag as the OR of theirs; each that saturates is counted (R172, R173). -/
theorem execAll_procX_elements (vs : List Nat) (s : State) : ∃ (u : State) (rs : List Response),
    execAll (vs.map fun v => Instr.procX (sample16Of v)) s = .next u ∧ u.responses = s.responses ++ rs ∧
    (∀ any, foldElements (elementX hw) (s.fixed, any) vs =
      ((u.fixed, any || rs.any fun r => r.satf), rs.map fun r => r.res.toNat)) ∧
    u.fixed.satcnt.toNat = min (s.fixed.satcnt.toNat + rs.countP fun r => r.satf) (2 ^ 32 - 1) := by
  induction vs generalizing s with
  | nil =>
    have hcnt : s.fixed.satcnt.toNat ≤ 2 ^ 32 - 1 := Nat.le_pred_of_lt s.fixed.satcnt.isLt
    exact ⟨s, [], rfl, (List.append_nil _).symm, fun any => by simp [foldElements], (Nat.min_eq_left hcnt).symm⟩
  | cons v vs ih =>
    have hv := exec_eq_next_iff.2 (Completes.procX (s := s) (sample16Of v))
    obtain ⟨u, rs, hu, hrs, hfold, hcnt⟩ := ih _
    refine ⟨u, _ :: rs, (execAll_cons hv _).trans hu, hrs.trans (List.append_assoc ..), fun any => ?_, ?_⟩
    · simp only [respondOk_fixed] at hfold
      simp [foldElements, elementX, hfold, Bool.or_assoc]
    · rw [hcnt, respondOk_fixed, stepX_satcnt, countEvent_add_saturates, List.countP_cons]

/-- Settles O40: FBUF.X is the fold over the elements of its range, and so are their PROC.X commands. -/
theorem fbufXIsSuccessiveProcX : Obligations.FbufXIsSuccessiveProcX := by
  intro base len s hlen hadm
  obtain ⟨ins, hl, hv⟩ := hadm.exists_holds hlen
  obtain ⟨u, rs, hu, hrs, hfold, -⟩ := execAll_procX_elements ins s
  have houts := holds_writeAll (m := s.mem) (a := base.toNat) (foldElements_lt (elementX_lt hw) (s.fixed, false) ins)
  have hcount := foldElements_length (elementX hw) (s.fixed, false) ins
  rw [hfold] at houts hcount
  refine ⟨_, u, ins, rs, hl, hv, hu, hrs, by simpa using hcount, exec_eq_next_iff.2 (.fbufX hlen hadm hl hv), ?_, ?_, ?_,
    fun a ha => (hv.elementsReplaced hlen hl).byte_outside ha, rfl, rfl, rfl⟩
  · rw [respondOk_fixed, hfold]
  · rwa [respondOk_mem, hfold]
  · rw [respondOk_responses, hfold, Bool.false_or]

/-- Every element advances the offset once (R147). -/
theorem foldElements_elementX_offs {n : Nat} (p : Params n) (st : FixedSlot n × Bool) (vs : List Nat) :
    (foldElements (elementX p) st vs).1.1.offs = p.rnd.next^[vs.length] st.1.offs := by
  induction vs generalizing st with
  | nil => rfl
  | cons v vs ih => exact ih _

/-- From 0 or 1, the offset after `k` steps of `ALT`. -/
theorem alt_next_iterate_toNat_add {o : BitVec 15} (h : o.toNat ≤ 1) (k : Nat) :
    (Rnd.alt.next^[k] o).toNat = (o.toNat + k) % 2 := by
  induction k with
  | zero => exact (Nat.mod_eq_of_lt (Nat.lt_succ_of_le h)).symm
  | succ k ih =>
    rw [Function.iterate_succ_apply', alt_next_toNat (by omega), ih]
    omega

/-- Settles O41: the fold advances the offset once per element, and its counter is that of the PROC.X commands. -/
theorem fbufXCountsEveryElement : Obligations.FbufXCountsEveryElement := by
  intro base len s hlen hadm hoffs
  obtain ⟨ins, hl, hv⟩ := hadm.exists_holds hlen
  obtain ⟨u, rs, hu, hrs, hfold, hcnt⟩ := execAll_procX_elements ins s
  refine ⟨_, u, ins, rs, hv, hl, hu, hrs, exec_eq_next_iff.2 (.fbufX hlen hadm hl hv), ?_, ?_⟩
  · rw [respondOk_fixed, foldElements_elementX_offs, hw_rnd, alt_next_iterate_toNat_add hoffs, hl]
  · rw [respondOk_fixed, hfold, hcnt]

/-! ## FBUF.F and the PROC.F commands of its elements -/

@[simp] theorem f64of_bits64 (y : F64) : f64of (bits64 y) = y := BitVec.ofNat_toNat ..

/-- The fold of FBUF.F shifts its elements in, and output `k` is the engine's for the line after `k + 1` of them, up to the
pattern of a NaN (R172, R128). -/
theorem foldElements_elementF {n : Nat} (p : Params n) (st : FloatSlot n × Nat) (vs : List Nat) :
    (foldElements (elementF p) st vs).1.1 = ⟨(vs.map f64of).foldl shiftIn st.1.hf⟩ ∧
    ∀ k (h : k < (foldElements (elementF p) st vs).2.length),
      SameUpToNaN (outputF p ⟨((vs.map f64of).take (k + 1)).foldl shiftIn st.1.hf⟩)
        (f64of (foldElements (elementF p) st vs).2[k]) := by
  induction vs generalizing st with
  | nil => exact ⟨rfl, fun k h => absurd h (Nat.not_lt_zero k)⟩
  | cons v vs ih =>
    obtain ⟨hslot, houts⟩ := ih (elementF p st v).1
    refine ⟨hslot, fun k h => ?_⟩
    cases k with
    | zero =>
      simp only [foldElements, elementF, List.getElem_cons_zero, f64of_bits64]
      exact sameUpToNaN_settleNaN ..
    | succ k => exact houts k (Nat.lt_of_succ_lt_succ h)

/-- The PROC.F commands of some elements shift them in, and answer for the same lines. -/
theorem execAll_procF_elements (vs : List Nat) (s : State) : ∃ (u : State) (rs : List Response),
    execAll (vs.map fun v => Instr.procF (f64of v)) s = .next u ∧ u.responses = s.responses ++ rs ∧
    rs.length = vs.length ∧ u.float = ⟨(vs.map f64of).foldl shiftIn s.float.hf⟩ ∧
    ∀ k (h : k < rs.length),
      SameUpToNaN (outputF hw ⟨((vs.map f64of).take (k + 1)).foldl shiftIn s.float.hf⟩) rs[k].res := by
  have hcmds : (vs.map fun v => Instr.procF (f64of v)) = (vs.map f64of).map .procF := List.map_map.symm
  obtain ⟨u, rs, hu, hrs, hlen, hans⟩ := execAll_procF_answers (vs.map f64of) s
  obtain ⟨u', hu', hhf⟩ := execAll_map_foldl (part := fun s => s.float.hf) (shift := shiftIn)
    (fun x s => ⟨_, exec_eq_next_iff.2 (.procF x), stepF_hf hw ..⟩) (vs.map f64of) s
  obtain rfl : u = u' := Host.Outcome.next.inj (hu.symm.trans hu')
  refine ⟨u, rs, hcmds ▸ hu, hrs, by rw [hlen, List.length_map], congrArg FloatSlot.mk hhf, fun k h => ?_⟩
  obtain ⟨y, hr, hy⟩ := hans k h
  rwa [hr]

/-- Settles O42: output `k` of the fold and response `k` of the PROC.F commands are the engine's for the same line. -/
theorem fbufFIsSuccessiveProcF : Obligations.FbufFIsSuccessiveProcF := by
  intro base len s draws hlen hadm
  obtain ⟨ins, hl, hv⟩ := hadm.exists_holds hlen
  obtain ⟨hslot, houts⟩ := foldElements_elementF hw (s.float, s.nanDraws) ins
  obtain ⟨u, rs, hu, hrs, hlen', hfloat, hans⟩ := execAll_procF_elements ins { s with nanDraws := draws }
  refine ⟨_, u, ins, _, rs, hl, hv, hu, hrs, hlen', exec_eq_next_iff.2 (.fbufF hlen hadm hl hv), hslot.trans hfloat.symm,
    foldElements_length .., holds_writeAll (foldElements_lt (elementF_lt hw) _ ins),
    fun k h h' => (houts k h).symm.trans (hans k h'), rfl,
    fun a ha => (hv.elementsReplaced hlen hl).byte_outside ha, rfl, rfl⟩

/-! ## A buffer in two parts -/

section parts
variable {w : Nat} {base len1 len2 : Addr} {m : Memory}

/-- Where the second part starts: behind the first one, or, when the first one ends at 2^32 and the second is empty, at 0. -/
theorem toNat_base_add (h : base.toNat + (len1.toNat + len2.toNat) ≤ 2 ^ 32) :
    (base + len1).toNat = base.toNat + len1.toNat ∨ (base + len1).toNat = 0 ∧ len2.toNat = 0 := by
  rw [BitVec.toNat_add]
  omega

/-- Admission looks at the allocated set alone (R54). -/
theorem Admitted.congr {b len : Nat} {m' : Memory} (h : Admitted w b len m)
    (hm : ∀ a, (m'.byte a).isSome = (m.byte a).isSome) : Admitted w b len m' := by
  obtain ⟨halign, hrange, halloc⟩ := h
  exact ⟨halign, hrange, fun a hlo hhi => (hm a).trans (halloc a hlo hhi)⟩

theorem Admitted.firstPart {b k l : Nat} (h : Admitted w b (k + l) m) : Admitted w b k m := by
  obtain ⟨halign, hrange, halloc⟩ := h
  exact ⟨halign, by omega, fun a hlo hhi => halloc a hlo (by omega)⟩

theorem Admitted.secondPart (h : Admitted w base.toNat (len1.toNat + len2.toNat) m) (hlen1 : len1.toNat % w = 0) :
    Admitted w (base + len1).toNat len2.toNat m := by
  obtain ⟨halign, hrange, halloc⟩ := h
  rcases toNat_base_add hrange with hstart | ⟨hstart, hempty⟩ <;> rw [hstart]
  · exact ⟨by simp [Nat.add_mod, halign, hlen1], by omega, fun a hlo hhi => halloc a (by omega) (by omega)⟩
  · exact ⟨Nat.zero_mod w, by omega, fun a hlo hhi => by omega⟩

end parts

/-- THE SECOND PART (R175): after the first part has replaced its elements by `us`, an FBUF over the rest goes on from
there, over the elements that were there before. -/
theorem streamBuffer_secondPart {σ : Type} {w : Nat} {step : σ → Nat → σ × Nat} {st : σ} {finish : σ → Memory → State}
    {base len1 len2 : Addr} {m : Memory} {s : State} {xs ys us : List Nat} (hlen1 : len1.toNat % w = 0)
    (hlen2 : len2.toNat % w = 0) (hadm : Admitted w base.toNat (len1.toNat + len2.toNat) m)
    (hxs : xs.length = len1.toNat / w) (hys : ys.length = len2.toNat / w) (hv : Holds w m base.toNat (xs ++ ys))
    (hus : us.length = xs.length) (hmem : s.mem = writeAll w m base.toNat us) :
    streamBuffer w step st finish (base + len1) len2 s = .next (finish (foldElements step st ys).1
      (writeAll w m base.toNat (us ++ (foldElements step st ys).2))) := by
  obtain ⟨hvx, hvy⟩ := Holds.append_iff.1 hv
  have hend : us.length * w = len1.toNat := by rw [hus, hxs, Nat.div_mul_cancel (Nat.dvd_of_mod_eq_zero hlen1)]
  have hadm2 : Admitted w (base + len1).toNat len2.toNat s.mem :=
    (hadm.congr fun a => by rw [hmem, isSome_byte_writeAll hus hvx]).secondPart hlen1
  obtain ⟨-, hrange, -⟩ := hadm
  rcases toNat_base_add hrange with hstart | ⟨-, hempty⟩
  · rw [← hus, hend, ← hstart] at hvy
    rw [streamBuffer_next hlen2 hadm2 hys, hmem, hstart, writeAll_append, hend]
    exact hvy.congr fun x hlo _ => by rw [hmem, byte_writeAll (by omega)]
  · obtain rfl : ys = [] := List.eq_nil_of_length_eq_zero (by rw [hys, hempty, Nat.zero_div])
    rw [streamBuffer_next hlen2 hadm2 hys trivial, hmem]
    simp [foldElements, writeAll]

/-- An admitted range in two parts: the elements of each, and the whole as one range. -/
theorem Admitted.exists_parts {w : Nat} {base len1 len2 : Addr} {m : Memory} (hlen1 : len1.toNat % w = 0)
    (hlen2 : len2.toNat % w = 0) (hlt : len1.toNat + len2.toNat < 2 ^ 32)
    (hadm : Admitted w base.toNat (len1.toNat + len2.toNat) m) :
    ∃ xs ys : List Nat, xs.length = len1.toNat / w ∧ ys.length = len2.toNat / w ∧ Holds w m base.toNat (xs ++ ys) ∧
      (len1 + len2).toNat % w = 0 ∧ Admitted w base.toNat (len1 + len2).toNat m ∧
      (xs ++ ys).length = (len1 + len2).toNat / w := by
  have hsum : (len1 + len2).toNat = len1.toNat + len2.toNat := by rw [BitVec.toNat_add, Nat.mod_eq_of_lt hlt]
  have hd1 := Nat.dvd_of_mod_eq_zero hlen1
  have hd2 := Nat.dvd_of_mod_eq_zero hlen2
  have hmod := Nat.mod_eq_zero_of_dvd (hd1.add hd2)
  obtain ⟨vs, hl, hv⟩ := hadm.exists_holds hmod
  rw [Nat.add_div_of_dvd_right hd1] at hl
  rw [hsum]
  refine ⟨vs.take (len1.toNat / w), vs.drop (len1.toNat / w), ?_, ?_, ?_, hmod, hadm, ?_⟩
  · rw [List.length_take, hl, Nat.min_eq_left (Nat.le_add_right ..)]
  · rw [List.length_drop, hl, Nat.add_sub_cancel_left]
  · rwa [List.take_append_drop]
  · rw [List.take_append_drop, hl, Nat.add_div_of_dvd_right hd1]

/-- Settles O43: the PROC.X commands of the first part's elements and then those of the second's are the PROC.X commands of
the whole, and the one flag is the OR over all of them. -/
theorem splitFbufXIsOneFbufX : Obligations.SplitFbufXIsOneFbufX := by
  intro base len1 len2 s hlen1 hlen2 hlt hadm
  obtain ⟨xs, ys, hxs, hys, hv, hlen, hadm', hl⟩ := hadm.exists_parts hlen1 hlen2 hlt
  obtain ⟨hvx, -⟩ := Holds.append_iff.1 hv
  obtain ⟨u1, rs1, -, -, hfold1, -⟩ := execAll_procX_elements xs s
  obtain ⟨u2, rs2, -, -, hfold2, -⟩ := execAll_procX_elements ys u1
  refine ⟨_, _, _, _, _, _, execFbufX_next hlen hadm' hl hv, execFbufX_next hlen1 hadm.firstPart hxs hvx,
    streamBuffer_secondPart hlen1 hlen2 hadm hxs hys hv (foldElements_length ..) rfl, ?_, ?_, rfl,
    List.append_assoc .., ?_⟩ <;>
    simp [foldElements_append, hfold1, hfold2]

/-- The NaN draws a fold of FBUF.F starts from change neither its slot nor, but for the pattern of a NaN, its outputs. -/
theorem foldElements_elementF_draws {n : Nat} (p : Params n) (slot : FloatSlot n) (draws draws' : Nat) (vs : List Nat) :
    (foldElements (elementF p) (slot, draws) vs).1.1 = (foldElements (elementF p) (slot, draws') vs).1.1 ∧
    ∀ k (h : k < (foldElements (elementF p) (slot, draws) vs).2.length)
      (h' : k < (foldElements (elementF p) (slot, draws') vs).2.length),
      SameUpToNaN (f64of (foldElements (elementF p) (slot, draws) vs).2[k])
        (f64of (foldElements (elementF p) (slot, draws') vs).2[k]) := by
  obtain ⟨hslot, houts⟩ := foldElements_elementF p (slot, draws) vs
  obtain ⟨hslot', houts'⟩ := foldElements_elementF p (slot, draws') vs
  exact ⟨hslot.trans hslot'.symm, fun k h h' => (houts k h).symm.trans (houts' k h')⟩

/-- Lists of 64-bit numbers that are the same up to the pattern of a NaN are equal when the one holds no NaN. -/
theorem eq_of_sameUpToNaN {us vs : List Nat} (hl : us.length = vs.length) (hus : ∀ u ∈ us, u < 256 ^ widthF)
    (hvs : ∀ v ∈ vs, v < 256 ^ widthF)
    (hsame : ∀ k (h : k < us.length) (h' : k < vs.length), SameUpToNaN (f64of us[k]) (f64of vs[k]))
    (hn : ∀ u ∈ us, (f64of u).isNaN = false) : vs = us := by
  refine List.ext_getElem hl.symm fun k h' h => ?_
  have heq := congrArg BitVec.toNat ((hsame k h h').eq_of_not_isNaN (hn _ (List.getElem_mem h)))
  have hu : us[k] < 2 ^ 64 := hus _ (List.getElem_mem h)
  have hv : vs[k] < 2 ^ 64 := hvs _ (List.getElem_mem h')
  rwa [f64of, f64of, BitVec.toNat_ofNat, BitVec.toNat_ofNat, Nat.mod_eq_of_lt hu, Nat.mod_eq_of_lt hv] at heq

/-- Settles O44: the two parts are one fold from other NaN draws. -/
theorem splitFbufFIsOneFbufF : Obligations.SplitFbufFIsOneFbufF := by
  intro base len1 len2 s draws hlen1 hlen2 hlt hadm
  obtain ⟨xs, ys, hxs, hys, hv, hlen, hadm', hl⟩ := hadm.exists_parts hlen1 hlen2 hlt
  obtain ⟨hvx, -⟩ := Holds.append_iff.1 hv
  obtain ⟨hslot, hsame⟩ := foldElements_elementF_draws hw s.float s.nanDraws draws (xs ++ ys)
  have hus := foldElements_lt (elementF_lt hw) (s.float, s.nanDraws) (xs ++ ys)
  have hvs := foldElements_lt (elementF_lt hw) (s.float, draws) (xs ++ ys)
  have hul := foldElements_length (elementF hw) (s.float, s.nanDraws) (xs ++ ys)
  have hvl := foldElements_length (elementF hw) (s.float, draws) (xs ++ ys)
  rw [foldElements_append _ (s.float, draws)] at hslot hsame hvs hvl
  refine ⟨_, _, _, _, _, execFbufF_next hlen hadm' hl hv,
    execFbufF_next (s := { s with nanDraws := draws }) hlen1 hadm.firstPart hxs hvx,
    streamBuffer_secondPart hlen1 hlen2 hadm hxs hys hv (foldElements_length ..) rfl, hslot.symm, ?_,
    hvl.trans hul.symm, holds_writeAll hus, holds_writeAll hvs, hsame,
    fun hn => congrArg (writeAll 8 s.mem base.toNat) (eq_of_sameUpToNaN (hul.trans hvl.symm) hus hvs hsame hn)⟩
  rw [hul, List.length_append, hxs, hys, Nat.add_div_of_dvd_right (Nat.dvd_of_mod_eq_zero hlen1)]

end Sys2Proof.Machine
end

section
/-! PROOFS. The two errors and the refusals (spec/60_exceptions.md R190 to R195): which packets are answered with which
error, and which have no step. -/

namespace Sys2Proof.Machine

/-! ## The error responses -/

/-- A packet that does not decode is accepted and raises IllegalCommand (R191, R196). -/
theorem step_of_decode_eq_none {s : State} {cp : Packet} {rest : List Packet} (hc : s.commands = cp :: rest)
    (hd : decode cp = none) : step s = raiseError .illegalCommand { s with commands := rest } := by
  simp only [step, acceptCommand_cons hc, runPacket, hd]

/-- Settles O4: a packet that is no command's encoding does not decode. -/
theorem otherPacketsRaiseIllegalCommand : Obligations.OtherPacketsRaiseIllegalCommand := by
  intro s cp rest hc hne
  have hd : decode cp = none := Option.eq_none_iff_forall_ne_some.2 fun i hi => hne i ((decodeIffEncode cp i).1 hi)
  exact step_of_decode_eq_none hc hd

/-- An FBUF whose length is not a whole number of its path's samples (R171). -/
def IsBadLengthFbuf (i : Instr) : Prop :=
  ∃ base len : Addr, (i = .fbufF base len ∧ len.toNat % 8 ≠ 0) ∨ (i = .fbufX base len ∧ len.toNat % 2 ≠ 0)

/-- The response of a completed command is OK, or it is InvalidBufferLayout and the command an FBUF with a bad length. -/
theorem Completes.stat_eq_or {s t : State} {i : Instr} (h : Completes s i t) :
    ∃ r, t.responses = s.responses ++ [r] ∧ (r.stat = .ok ∨ r.stat = .invalidBufferLayout ∧ IsBadLengthFbuf i) := by
  cases h with
  | newengF | newengX | procF | procX | rdsat | fbufF | fbufX => exact ⟨_, rfl, .inl rfl⟩
  | layoutF hlen => exact ⟨_, rfl, .inr ⟨rfl, _, _, .inl ⟨rfl, hlen⟩⟩⟩
  | layoutX hlen => exact ⟨_, rfl, .inr ⟨rfl, _, _, .inr ⟨rfl, hlen⟩⟩⟩

/-- Settles O36, by the status of each way to complete. -/
theorem layoutErrorOnlyFromPartialSamples : Obligations.LayoutErrorOnlyFromPartialSamples := by
  intro i s t r h hr hstat
  obtain ⟨r', hr', hcases⟩ := (exec_eq_next_iff.1 h).stat_eq_or
  obtain rfl : r = r' := by simpa [hr] using hr'
  exact hcases.resolve_left hstat

/-! ## The refusals -/

/-- The commands to which the spec gives no meaning over the memory `m`: either FBUF with a good length and a range that is
not admitted (R54, R194). -/
def IsUnadmittedFbuf (i : Instr) (m : Memory) : Prop :=
  ∃ base len : Addr, (i = .fbufF base len ∧ len.toNat % 8 = 0 ∧ ¬ Admitted 8 base.toNat len.toNat m) ∨
    (i = .fbufX base len ∧ len.toNat % 2 = 0 ∧ ¬ Admitted 2 base.toNat len.toNat m)

/-- A refused FBUF of either path has a good length and a range that is not admitted. -/
theorem not_admitted_of_streamBuffer_refused {σ : Type} {w : Nat} {step : σ → Nat → σ × Nat} {st : σ}
    {finish : σ → Memory → State} {base len : Addr} {s : State} {q : Refusal}
    (h : streamBuffer w step st finish base len s = .refused q) :
    len.toNat % w = 0 ∧ ¬ Admitted w base.toNat len.toNat s.mem := by
  have hlen : len.toNat % w = 0 := by
    by_contra hlen
    rw [streamBuffer_layout hlen] at h
    cases h
  exact ⟨hlen, (streamBuffer_isRefused_iff hlen).1 ⟨q, h⟩⟩

/-- A refused command is an FBUF to which the spec gives no meaning. -/
theorem isUnadmittedFbuf_of_exec_refused {i : Instr} {s : State} {q : Refusal} (h : exec i s = .refused q) :
    IsUnadmittedFbuf i s.mem := by
  cases i with
  | newengF | newengX | procF | procX | rdsat => cases h
  | fbufF base len => exact ⟨base, len, .inl ⟨rfl, not_admitted_of_streamBuffer_refused h⟩⟩
  | fbufX base len => exact ⟨base, len, .inr ⟨rfl, not_admitted_of_streamBuffer_refused h⟩⟩

/-- Settles O38, by the inversion of a step: an idle step and an illegal packet are answered, and a decoded command is
refused only as an FBUF that is not admitted. -/
theorem onlyFbufIsEverRefused : Obligations.OnlyFbufIsEverRefused := by
  intro s q h
  rcases step_cases s with ⟨-, e⟩ | ⟨cp, rest, -, -, e⟩ | ⟨cp, rest, i, hc, hd, e⟩ <;> rw [e] at h
  · cases h
  · cases h
  · obtain ⟨base, len, hi⟩ := isUnadmittedFbuf_of_exec_refused h
    refine ⟨cp, rest, base, len, hc, ?_⟩
    rcases hi with ⟨rfl, hF⟩ | ⟨rfl, hX⟩
    · exact .inl ⟨hd, hF⟩
    · exact .inr ⟨hd, hX⟩

end Sys2Proof.Machine
end

section
/-! PROOFS. Hardware reset and a run (spec/70_reset_and_hazards.md R220 to R222, R237): construction against reset, what a
reset during a command leaves, and what a run shows. -/

namespace Sys2Proof.Machine

/-! ## Reset by construction -/

/-- Settles O12: each command constructs its own slot and leaves the other one and memory. -/
theorem newengPairEqualsHardwareReset : Obligations.NewengPairEqualsHardwareReset := fun s =>
  ⟨_, _, (execAll_cons (exec_eq_next_iff.2 (Completes.newengF (s := s))) _).trans
      (execAll_cons (exec_eq_next_iff.2 .newengX) _),
    (execAll_cons (exec_eq_next_iff.2 (Completes.newengX (s := s))) _).trans
      (execAll_cons (exec_eq_next_iff.2 .newengF) _),
    rfl, rfl, rfl, rfl, rfl, rfl, rfl, rfl⟩

/-! ## A reset during a command -/

/-- An abandoned command that is no FBUF with a good length leaves memory (R65, R171). -/
theorem abandonedMemory_eq_mem {i : Instr} (k : Nat) (s : State)
    (hi : ∀ base len : Addr, (i = .fbufF base len → len.toNat % 8 ≠ 0) ∧ (i = .fbufX base len → len.toNat % 2 ≠ 0)) :
    abandonedMemory i k s = s.mem := by
  cases i with
  | newengF | newengX | procF | procX | rdsat => rfl
  | fbufF base len => exact memoryAfter_layout ((hi base len).1 rfl)
  | fbufX base len => exact memoryAfter_layout ((hi base len).2 rfl)

/-- Settles O55: the abandoned command has written nothing; for any command the reset answers nothing and puts constructed
slots in place. -/
theorem resetDuringOtherCommandsKeepsMemory : Obligations.ResetDuringOtherCommandsKeepsMemory :=
  fun _ k s hi => ⟨abandonedMemory_eq_mem k s hi, rfl, rfl, rfl⟩

/-- THE ABANDONED LOOP (R222): of an admitted range that holds `vs`, the first `k` elements are the outputs of that many
steps, and the others and every byte outside the range are as before. -/
theorem memoryAfter_leadingElements {σ : Type} {w : Nat} {step : σ → Nat → σ × Nat} {base len : Addr} {k : Nat}
    {m : Memory} {vs : List Nat} (hstep : ∀ st v, (step st v).2 < 256 ^ w) (st : σ) (hlen : len.toNat % w = 0)
    (hadm : Admitted w base.toNat len.toNat m) (hl : vs.length = len.toNat / w) (hk : k ≤ len.toNat / w)
    (hv : Holds w m base.toNat vs) :
    Holds w (memoryAfter w step st base len k m) base.toNat ((foldElements step st (vs.take k)).2 ++ vs.drop k) ∧
    ∀ a, a < base.toNat ∨ base.toNat + len.toNat ≤ a → (memoryAfter w step st base len k m).byte a = m.byte a := by
  have hcount : (foldElements step st (vs.take k)).2.length = k := by
    rw [foldElements_length, List.length_take, hl, Nat.min_eq_left hk]
  have hend : k * w ≤ len.toNat := (Nat.mul_le_mul_right w hk).trans (Nat.div_mul_le_self ..)
  have hrest : Holds w m (base.toNat + k * w) (vs.drop k) := by
    rw [← List.take_append_drop k vs, Holds.append_iff, List.length_take, hl, Nat.min_eq_left hk] at hv
    exact hv.2
  rw [memoryAfter_eq hlen hadm hl hk hv]
  refine ⟨Holds.append_iff.2 ⟨holds_writeAll (foldElements_lt hstep st _), ?_⟩, fun a ha => ?_⟩
  · rw [hcount]
    exact hrest.congr fun x hlo _ => (byte_writeAll (.inr (hcount.symm ▸ hlo))).symm
  · exact byte_writeAll (by rw [hcount]; omega)

/-- Settles O13: the outputs of the abandoned loop are the results of the PROC.X commands of the same elements. -/
theorem resetDuringFbufXLeavesLeadingElements : Obligations.ResetDuringFbufXLeavesLeadingElements := by
  intro s base len k hlen hadm hk
  obtain ⟨ins, hl, hv⟩ := hadm.exists_holds hlen
  obtain ⟨u, rs, hu, hrs, hfold, -⟩ := execAll_procX_elements (ins.take k) s
  obtain ⟨hholds, houtside⟩ := memoryAfter_leadingElements (elementX_lt hw) (s.fixed, false) hlen hadm hl hk hv
  rw [hfold] at hholds
  exact ⟨ins, u, rs, hl, hv, hu, hrs, hholds, houtside, rfl, rfl, rfl⟩

/-- Settles O54: output `j` of the abandoned loop and response `j` of the PROC.F commands are the engine's for the same
line. -/
theorem resetDuringFbufFLeavesLeadingElements : Obligations.ResetDuringFbufFLeavesLeadingElements := by
  intro s base len k draws hlen hadm hk
  obtain ⟨ins, hl, hv⟩ := hadm.exists_holds hlen
  have hcount : (ins.take k).length = k := by rw [List.length_take, hl, Nat.min_eq_left hk]
  obtain ⟨-, houts⟩ := foldElements_elementF hw (s.float, s.nanDraws) (ins.take k)
  obtain ⟨u, rs, hu, hrs, hlen', -, hans⟩ := execAll_procF_elements (ins.take k) { s with nanDraws := draws }
  obtain ⟨hholds, houtside⟩ := memoryAfter_leadingElements (elementF_lt hw) (s.float, s.nanDraws) hlen hadm hl hk hv
  exact ⟨ins, _, u, rs, hl, hv, hu, hrs, hlen'.trans hcount, (foldElements_length ..).trans hcount,
    fun j h h' => (houts j h).symm.trans (hans j h'), hholds, houtside, rfl, rfl, rfl⟩

/-! ## A run -/

/-- Steps over waiting packets that hold no FBUF all answer: only an FBUF is ever refused (R194). -/
theorem runSteps_isNext {ps : List Packet} (s : State) (hc : s.commands = ps)
    (hps : ∀ cp ∈ ps, ∀ base len : Addr, decode cp ≠ some (.fbufF base len) ∧ decode cp ≠ some (.fbufX base len)) :
    IsNext (runSteps ps.length s) := by
  induction ps generalizing s with
  | nil => exact ⟨s, rfl⟩
  | cons cp ps ih =>
    rw [List.length_cons, runSteps]
    rcases step_ports s cp ps hc with ⟨t, -, h, htc, -⟩ | ⟨q, h, -⟩
    · rw [h]
      exact ih t htc fun cp' hcp' => hps cp' (List.mem_cons_of_mem _ hcp')
    · obtain ⟨cp', rest, base, len, hc', hd⟩ := onlyFbufIsEverRefused s q h
      obtain rfl : cp = cp' := (List.cons.inj (hc.symm.trans hc')).1
      obtain ⟨hF, hX⟩ := hps cp List.mem_cons_self base len
      exact absurd (hd.imp And.left And.left) (not_or.2 ⟨hF, hX⟩)

/-- A run that ends has used up its packets and has one response for each, and its steps do the same with packets behind
them and after earlier responses (R237). -/
theorem run_next {s t : State} {m : Memory} {ps : List Packet} (h : s.run m ps = .next t) :
    t.commands = [] ∧ t.responses.length = ps.length ∧ ∀ cs rs₀,
      runSteps ps.length { s with mem := m, commands := ps ++ cs, responses := rs₀ } =
        .next { t with commands := cs, responses := rs₀ ++ t.responses } := by
  rcases runSteps_ports ps (s.launch m ps) rfl with ⟨t', rs, ht, hc, hl, hr, hports⟩ | ⟨q, hq, -⟩
  · obtain rfl : t' = t := Host.Outcome.next.inj (ht.symm.trans h)
    obtain rfl : t'.responses = rs := hr
    exact ⟨hc, hl, hports⟩
  · cases hq.symm.trans h

/-- The steps of a refused run are refused with the same reason, whatever packets wait behind and whatever responses were
given before. -/
theorem run_refused {s : State} {m : Memory} {ps : List Packet} {q : Refusal} (h : s.run m ps = .refused q)
    (cs : List Packet) (rs₀ : List Response) :
    runSteps ps.length { s with mem := m, commands := ps ++ cs, responses := rs₀ } = .refused q := by
  rcases runSteps_ports ps (s.launch m ps) rfl with ⟨t, rs, ht, -⟩ | ⟨q', hq, hports⟩
  · cases ht.symm.trans h
  · obtain rfl : q' = q := Host.Outcome.refused.inj (hq.symm.trans h)
    exact hports cs rs₀

/-- A run of two packet lists goes on with the second one from the state in which the run of the first one ends. -/
theorem run_append {s t : State} {m : Memory} {ps : List Packet} (h : s.run m ps = .next t) (qs : List Packet) :
    s.run m (ps ++ qs) = runSteps qs.length { t with commands := qs } := by
  obtain ⟨-, -, hports⟩ := run_next h
  have hfirst : runSteps ps.length (s.launch m (ps ++ qs)) = .next { t with commands := qs } := hports qs []
  rw [State.run, List.length_append, runSteps_add, hfirst]

/-- Settles O56: the second run's steps do the same after the responses of the first one. -/
theorem runShowsItsOwnResponses : Obligations.RunShowsItsOwnResponses := by
  refine fun s m ps qs => ⟨⟨_, rfl, rfl⟩, runSteps_isNext (s.launch m ps) rfl, fun t ht => ?_⟩
  obtain ⟨hc, hl, -⟩ := run_next ht
  refine ⟨hc, by rw [State.observe, List.length_map, hl], fun u hu => ?_, fun q hq => ?_⟩
  · obtain ⟨-, -, hports⟩ := run_next hu
    exact ⟨_, (run_append ht qs).trans (by simpa using hports [] t.responses), by simp [State.observe]⟩
  · exact (run_append ht qs).trans (by simpa using run_refused hq [] t.responses)

end Sys2Proof.Machine
end

section
/-! PROOFS. The idle block: a step with no packet at the command port (assumption log 4). -/

namespace Sys2Proof.Machine

/-- Settles O6: with an empty command port there is no packet for the step to accept. -/
theorem idleBlockStaysIdle : Obligations.IdleBlockStaysIdle := by
  intro s hc
  simp only [step, acceptCommand_nil hc]

end Sys2Proof.Machine
end
